-- ==== Sys2Proof/Word.lean ====
section
/-! DEFINITION. The bit-vector types of the hardware: words, instruction fields, directory tags. -/

namespace Sys2Proof

/-- A 32-bit pattern: a register or datapath value, an address, an instruction word (00_scope.md R6, R4 `XLEN`). -/
abbrev Word := BitVec 32

/-- A register index, the width of the fields `d`, `s1`, `s2` (30_encoding.md R64 to R66). -/
abbrev RegIdx := BitVec 5

/-- A primary or secondary opcode number (30_encoding.md R62, R63). -/
abbrev Opcode := BitVec 6

/-- A shift count: the five bits of field `s2` read as a literal (44_bitfield.md R150). -/
abbrev ShiftCount := BitVec 5

/-- The condition mask of `bcnd`: the five bits of field `d` (43_branch.md R142). -/
abbrev CondMask := BitVec 5

/-- The 16-bit immediate field (30_encoding.md R67). -/
abbrev Imm16 := BitVec 16

/-- The displacement field of `bcnd` (30_encoding.md R70). -/
abbrev Disp16 := BitVec 16

/-- The displacement field of `br` (30_encoding.md R69). -/
abbrev Disp26 := BitVec 26

/-- A directory tag, address bits 31 to 9 (10_state.md R33). -/
abbrev Tag := BitVec 23

/-- A directory set number, 0 to 63 (10_state.md R30). -/
abbrev SetIdx := BitVec 6

end Sys2Proof
end

