-- ==== Sys2Proof/Config.lean ====
section
/-! DEFINITION. The configuration of the machine: the parameter record of 00_scope.md R4 (the opcode table, the
extension of the immediate, `rot` by 0, every size) and the one free value, the launch contents of memory. The
VALUES of the record stand in Decode.lean (`opcDoc`, `configuration`, `params`). -/

namespace Sys2Proof

/-- The table `OPC` of opcode numbers (30_encoding.md R77). The group numbers `0x3C` and `0x3D` are fixed by
R77 and R78 and stand in Decode.lean (`opBitfield`, `opTriadic`). -/
structure OpcTable where
  opHalt : Opcode
  opLdImm : Opcode
  opStImm : Opcode
  opLdaImm : Opcode
  opAddImm : Opcode
  opSubImm : Opcode
  opBr : Opcode
  opBcnd : Opcode
  op2Ext : Opcode
  op2Extu : Opcode
  op2Mak : Opcode
  op2Rot : Opcode
  op2Ld : Opcode
  op2St : Opcode
  op2Lda : Opcode
  op2Add : Opcode
  op2Sub : Opcode
  deriving DecidableEq, Repr

/-- The parameter `IMM16_EXT`: how `imm16` becomes 32 bits (30_encoding.md R73, 92_eei_decisions.md D4). -/
inductive Imm16Ext where
  | zero
  | sign
  deriving DecidableEq, Repr

/-- The parameter `ROT0`: `rot` with count 0 copies the register, or its word is treated as
`UnknownInstruction` (44_bitfield.md R154, 93_implementation_defined.md U1). -/
inductive Rot0 where
  | identity
  | fault
  deriving DecidableEq, Repr

/-- The three parameters with a default that 92_eei_decisions.md asks a model to take as arguments. -/
structure Params where
  opc : OpcTable
  imm16Ext : Imm16Ext
  rot0 : Rot0
  deriving DecidableEq, Repr

/-- The one configuration record of 00_scope.md R4, every parameter of its table under its own name: the three above,
which `decodeWith`, `execWith` and `stepWith` take as an argument, and the sizes and `MEM0`, which are fixed. That the
types of the model have these sizes is `configuration_fits` (Laws/Config.lean). -/
structure Configuration extends Params where
  /-- `XLEN`, width of a register and of every datapath value. -/
  xlen : Nat
  /-- `NREG`, number of general registers. -/
  nreg : Nat
  /-- `ILEN`, width of an instruction word. -/
  ilen : Nat
  /-- `PTR_W`, width of `fp` and `ep` (92_eei_decisions.md D10; log 14). -/
  ptrWidth : Nat
  /-- `MEM_WORDS`, capacity of memory in words. -/
  memWords : Nat
  /-- `LOAD_MAX_WORDS`, most words the loader may place. -/
  loadMaxWords : Nat
  /-- `NSETS`, cache sets. -/
  nsets : Nat
  /-- `NWAYS`, ways per set. -/
  nways : Nat
  /-- `TAG_W`, tag width in bits. -/
  tagWidth : Nat
  /-- `INDEX_SHIFT`, the right shift that gives the set index. -/
  indexShift : Nat
  /-- `INDEX_MASK`, the mask after that shift. -/
  indexMask : Nat
  /-- `TAG_SHIFT`, the right shift that gives the tag. -/
  tagShift : Nat
  /-- `CNT_W`, width of a counter; `none` is unbounded (92_eei_decisions.md D13; log 13). -/
  cntWidth : Option Nat
  /-- `CACHE_ACTIVE`, is the directory consulted on every `ld` and `st`? (92_eei_decisions.md D14; log 15). -/
  cacheActive : Bool
  /-- `MEM0`, the launch contents of memory by word index (92_eei_decisions.md D12; log 5). -/
  mem0 : Nat → Word

/-- The parameter `MEM0`: what word `i` of memory holds at launch outside the loaded program (10_state.md R36,
92_eei_decisions.md D12). A FREE VALUE: it has no body, so nothing can be proved of it (log 5). -/
opaque Config.mem0 : Nat → Word

end Sys2Proof
end

