-- ==== Sys2Proof/Syntax.lean ====
section
/-! DEFINITION. The twenty instruction forms (30_encoding.md R76), one constructor per row of
spec/opcode_table.json, in the order of the table. -/

namespace Sys2Proof

/-- An instruction form with its operands; ignored bits (30_encoding.md R79) are not part of it. -/
inductive Instr where
  /-- `halt` (40_execution_cycle.md R105). -/
  | halt
  /-- `ld rD,rS1,imm` (41_load_store.md R111). -/
  | ldImm (d s1 : RegIdx) (imm : Imm16)
  /-- `ld rD,rS1,rS2` (R112). -/
  | ldReg (d s1 s2 : RegIdx)
  /-- `ld rD,rS1[rS2]` (R113). -/
  | ldScaled (d s1 s2 : RegIdx)
  /-- `st rD,rS1,imm` (R114); `d` is the register stored. -/
  | stImm (d s1 : RegIdx) (imm : Imm16)
  /-- `st rD,rS1,rS2` (R115). -/
  | stReg (d s1 s2 : RegIdx)
  /-- `st rD,rS1[rS2]` (R116). -/
  | stScaled (d s1 s2 : RegIdx)
  /-- `lda rD,rS1,imm` (R117). -/
  | ldaImm (d s1 : RegIdx) (imm : Imm16)
  /-- `lda rD,rS1,rS2` (R118). -/
  | ldaReg (d s1 s2 : RegIdx)
  /-- `lda rD,rS1[rS2]` (R119). -/
  | ldaScaled (d s1 s2 : RegIdx)
  /-- `add rD,rS1,imm` (42_arith.md R131). -/
  | addImm (d s1 : RegIdx) (imm : Imm16)
  /-- `add rD,rS1,rS2` (R132). -/
  | addReg (d s1 s2 : RegIdx)
  /-- `sub rD,rS1,imm` (R133). -/
  | subImm (d s1 : RegIdx) (imm : Imm16)
  /-- `sub rD,rS1,rS2` (R134). -/
  | subReg (d s1 s2 : RegIdx)
  /-- `br n` (43_branch.md R141). -/
  | br (disp : Disp26)
  /-- `bcnd cond,rS1,n` (R143); the mask is the field `d`. -/
  | bcnd (mask : CondMask) (s1 : RegIdx) (disp : Disp16)
  /-- `ext rD,rS1,n` (44_bitfield.md R151). -/
  | ext (d s1 : RegIdx) (n : ShiftCount)
  /-- `extu rD,rS1,n` (R152). -/
  | extu (d s1 : RegIdx) (n : ShiftCount)
  /-- `mak rD,rS1,n` (R153). -/
  | mak (d s1 : RegIdx) (n : ShiftCount)
  /-- `rot rD,rS1,n` (R154). -/
  | rot (d s1 : RegIdx) (n : ShiftCount)
  deriving DecidableEq, Repr

end Sys2Proof
end

