-- ==== Sys2Proof/WellFormed.lean ====
section
/-! DEFINITION. Which instructions are legal encodings. The operand fields have exactly the width of their
encoding, so the only checks left are the two zero displacements (30_encoding.md R83, 43_branch.md R145) and,
under `ROT0 = fault`, a zero rotate count (93_implementation_defined.md U1). -/

namespace Sys2Proof

/-- Is the instruction a legal encoding under this choice of `ROT0`? A zero displacement is still SELECTED by the
dispatch and then raises `InvalidBranchEncoding` (R83). -/
def Instr.wellFormedFor (r : Rot0) : Instr → Bool
  | .br disp => disp != 0
  | .bcnd _ _ disp => disp != 0
  | .rot _ _ n => r == .identity || n != 0
  | .halt | .ldImm .. | .ldReg .. | .ldScaled .. | .stImm .. | .stReg .. | .stScaled ..
  | .ldaImm .. | .ldaReg .. | .ldaScaled .. | .addImm .. | .addReg .. | .subImm .. | .subReg ..
  | .ext .. | .extu .. | .mak .. => true

end Sys2Proof
end

