-- ==== Sys2Proof/Decode.lean ====
section
/-! DEFINITION. The decoder block (30_encoding.md R60 to R71), the opcode table (R77, R80), the dispatch `select`
(R78), and the encoder (R88). -/

namespace Sys2Proof

/-! ## The opcode numbers -/

/-- The primary opcode of the shifts and the rotate (30_encoding.md R77 `OP_BITFIELD`, R78). -/
def opBitfield : Opcode := 0x3C

/-- The primary opcode of the register and scaled forms (30_encoding.md R77 `OP_TRIADIC`, R78). -/
def opTriadic : Opcode := 0x3D

/-- The default profile `OPC_DOC` (30_encoding.md R77). -/
def opcDoc : OpcTable where
  opHalt := 0x00
  opLdImm := 0x17
  opStImm := 0x09
  opLdaImm := 0x0D
  opAddImm := 0x1C
  opSubImm := 0x1D
  opBr := 0x30
  opBcnd := 0x3A
  op2Ext := 0x24
  op2Extu := 0x26
  op2Mak := 0x28
  op2Rot := 0x2A
  op2Ld := 0x05
  op2St := 0x09
  op2Lda := 0x0D
  op2Add := 0x1C
  op2Sub := 0x1D

/-- The alternative profile `OPC_M88K`: `OPC_DOC` with `OP_LD_IMM = 0x05` (30_encoding.md R80). -/
def opcM88k : OpcTable := { opcDoc with opLdImm := 0x05 }

/-- The constraints any table must meet (30_encoding.md R77, below the table). -/
abbrev OpcTable.Admissible (t : OpcTable) : Prop :=
  [t.opHalt, t.opLdImm, t.opStImm, t.opLdaImm, t.opAddImm, t.opSubImm, t.opBr, t.opBcnd,
    opBitfield, opTriadic].Nodup ∧
  [t.op2Ext, t.op2Extu, t.op2Mak, t.op2Rot].Nodup ∧
  [t.op2Ld, t.op2St, t.op2Lda, t.op2Add, t.op2Sub].Nodup

/-- The configuration of this machine: the values of 00_scope.md R4, in the order of its table after the three
choices (log 1, 3, 4). -/
def configuration : Configuration where
  opc := opcDoc
  imm16Ext := .zero
  rot0 := .identity
  xlen := 32
  nreg := 32
  ilen := 32
  ptrWidth := 32
  memWords := 262144
  loadMaxWords := 256
  nsets := 64
  nways := 2
  tagWidth := 23
  indexShift := 3
  indexMask := 0x3F
  tagShift := 9
  cntWidth := none
  cacheActive := true
  mem0 := Config.mem0

/-- The parameters this machine runs with: the spec's defaults (00_scope.md R4; log 1, 3, 4). -/
def params : Params := configuration.toParams

/-- Is the instruction a legal encoding of this machine? -/
def Instr.wellFormed (i : Instr) : Bool := i.wellFormedFor params.rot0

/-! ## The decoder block -/

/-- The nine outputs of the decoder (30_encoding.md R61). -/
structure DecodedInstruction where
  op : Opcode
  d : RegIdx
  s1 : RegIdx
  op2 : Opcode
  scale : BitVec 1
  s2 : RegIdx
  imm16 : Imm16
  disp26 : Disp26
  disp16 : Disp16
  deriving DecidableEq, Repr

/-- Field extraction: each output is a fixed slice of the word (30_encoding.md R61 to R70). -/
def extractFields (iw : Word) : DecodedInstruction where
  op := iw.extractLsb' 26 6
  d := iw.extractLsb' 21 5
  s1 := iw.extractLsb' 16 5
  op2 := iw.extractLsb' 10 6
  scale := iw.extractLsb' 9 1
  s2 := iw.extractLsb' 0 5
  imm16 := iw.extractLsb' 0 16
  disp26 := iw.extractLsb' 0 26
  disp16 := iw.extractLsb' 0 16

/-! ## Dispatch -/

/-- What a word selects: one of the twenty forms, or `UnknownInstruction` (30_encoding.md R78). -/
inductive Selection where
  | form (i : Instr)
  | unknownInstruction
  deriving DecidableEq, Repr

/-- The second level under `0x3C` (30_encoding.md R78). The test of `ROT0` is vacuous under the default
`identity`; under `fault` a `rot` by 0 is treated as unknown (93_implementation_defined.md U1; log 4). -/
def selectBitfield (p : Params) (f : DecodedInstruction) : Selection :=
  if f.op2 = p.opc.op2Ext then .form (.ext f.d f.s1 f.s2)
  else if f.op2 = p.opc.op2Extu then .form (.extu f.d f.s1 f.s2)
  else if f.op2 = p.opc.op2Mak then .form (.mak f.d f.s1 f.s2)
  else if f.op2 = p.opc.op2Rot then
    if p.rot0 = .fault ∧ f.s2 = 0 then .unknownInstruction else .form (.rot f.d f.s1 f.s2)
  else .unknownInstruction

/-- The second level under `0x3D`: `scale = 1` selects the scaled form of `ld`, `st`, `lda`
(30_encoding.md R68, R78). -/
def selectTriadic (p : Params) (f : DecodedInstruction) : Selection :=
  if f.op2 = p.opc.op2Ld then
    if f.scale = 1 then .form (.ldScaled f.d f.s1 f.s2) else .form (.ldReg f.d f.s1 f.s2)
  else if f.op2 = p.opc.op2St then
    if f.scale = 1 then .form (.stScaled f.d f.s1 f.s2) else .form (.stReg f.d f.s1 f.s2)
  else if f.op2 = p.opc.op2Lda then
    if f.scale = 1 then .form (.ldaScaled f.d f.s1 f.s2) else .form (.ldaReg f.d f.s1 f.s2)
  else if f.op2 = p.opc.op2Add then .form (.addReg f.d f.s1 f.s2)
  else if f.op2 = p.opc.op2Sub then .form (.subReg f.d f.s1 f.s2)
  else .unknownInstruction

/-- `select`: dispatch on the primary opcode, then on the secondary one (30_encoding.md R78). -/
def select (p : Params) (f : DecodedInstruction) : Selection :=
  if f.op = p.opc.opHalt then .form .halt
  else if f.op = p.opc.opLdImm then .form (.ldImm f.d f.s1 f.imm16)
  else if f.op = p.opc.opStImm then .form (.stImm f.d f.s1 f.imm16)
  else if f.op = p.opc.opLdaImm then .form (.ldaImm f.d f.s1 f.imm16)
  else if f.op = p.opc.opAddImm then .form (.addImm f.d f.s1 f.imm16)
  else if f.op = p.opc.opSubImm then .form (.subImm f.d f.s1 f.imm16)
  else if f.op = p.opc.opBr then .form (.br f.disp26)
  else if f.op = p.opc.opBcnd then .form (.bcnd f.d f.s1 f.disp16)
  else if f.op = opBitfield then selectBitfield p f
  else if f.op = opTriadic then selectTriadic p f
  else .unknownInstruction

/-- The instruction a word stands for under a parameter record. -/
def decodeWith (p : Params) (iw : Word) : Selection := select p (extractFields iw)

/-- The instruction a word stands for on this machine (40_execution_cycle.md R92, R93). -/
def decode (iw : Word) : Selection := decodeWith params iw

/-! ## The encoder -/

/-- Format I, and format C with the mask in field `d` (30_encoding.md R72, R88). -/
def formatI (op : Opcode) (d s1 : BitVec 5) (low : BitVec 16) : Word := op ++ d ++ s1 ++ low

/-- Format T; the ignored bits 8 to 5 are 0 (30_encoding.md R72, R88). -/
def formatT (op2 : Opcode) (scale : BitVec 1) (d s1 s2 : RegIdx) : Word :=
  opTriadic ++ d ++ s1 ++ op2 ++ scale ++ (0 : BitVec 4) ++ s2

/-- Format B; the ignored bits 9 to 5 are 0 (30_encoding.md R72, R88). -/
def formatB (op2 : Opcode) (d s1 : RegIdx) (n : ShiftCount) : Word :=
  opBitfield ++ d ++ s1 ++ op2 ++ (0 : BitVec 5) ++ n

/-- Format J (30_encoding.md R72, R88). -/
def formatJ (op : Opcode) (disp : Disp26) : Word := op ++ disp

/-- Format H; the ignored bits 25 to 0 are 0 (30_encoding.md R72, R88). -/
def formatH (op : Opcode) : Word := op ++ (0 : BitVec 26)

/-- The canonical word of an instruction, every ignored bit 0 (30_encoding.md R88). -/
def encodeWith (p : Params) : Instr → Word
  | .halt => formatH p.opc.opHalt
  | .ldImm d s1 imm => formatI p.opc.opLdImm d s1 imm
  | .ldReg d s1 s2 => formatT p.opc.op2Ld 0 d s1 s2
  | .ldScaled d s1 s2 => formatT p.opc.op2Ld 1 d s1 s2
  | .stImm d s1 imm => formatI p.opc.opStImm d s1 imm
  | .stReg d s1 s2 => formatT p.opc.op2St 0 d s1 s2
  | .stScaled d s1 s2 => formatT p.opc.op2St 1 d s1 s2
  | .ldaImm d s1 imm => formatI p.opc.opLdaImm d s1 imm
  | .ldaReg d s1 s2 => formatT p.opc.op2Lda 0 d s1 s2
  | .ldaScaled d s1 s2 => formatT p.opc.op2Lda 1 d s1 s2
  | .addImm d s1 imm => formatI p.opc.opAddImm d s1 imm
  | .addReg d s1 s2 => formatT p.opc.op2Add 0 d s1 s2
  | .subImm d s1 imm => formatI p.opc.opSubImm d s1 imm
  | .subReg d s1 s2 => formatT p.opc.op2Sub 0 d s1 s2
  | .br disp => formatJ p.opc.opBr disp
  | .bcnd mask s1 disp => formatI p.opc.opBcnd mask s1 disp
  | .ext d s1 n => formatB p.opc.op2Ext d s1 n
  | .extu d s1 n => formatB p.opc.op2Extu d s1 n
  | .mak d s1 n => formatB p.opc.op2Mak d s1 n
  | .rot d s1 n => formatB p.opc.op2Rot d s1 n

/-- The canonical word of an instruction on this machine. -/
def encode (i : Instr) : Word := encodeWith params i

/-- The bits of a form's word that no rule looks at (30_encoding.md R79). -/
def Instr.ignoredBits : Instr → Word
  | .halt => 0x03FFFFFF
  | .ldReg .. | .ldScaled .. | .stReg .. | .stScaled .. | .ldaReg .. | .ldaScaled .. => 0x000001E0
  | .addReg .. | .subReg .. | .ext .. | .extu .. | .mak .. | .rot .. => 0x000003E0
  | .ldImm .. | .stImm .. | .ldaImm .. | .addImm .. | .subImm .. | .br .. | .bcnd .. => 0

/-- The instruction the decoder reads from a table row's word: every instruction is one 32-bit word whose bit 0
is the least significant (30_encoding.md R60, R61). -/
def decodeTableWord (nbits w : Nat) : Option Instr :=
  match decode (BitVec.ofNat 32 (w % 2 ^ nbits)) with
  | .form i => some i
  | .unknownInstruction => none

end Sys2Proof
end

