-- ==== Sys2Proof/Machine/State.lean ====
section
/-! DEFINITION. The state of the machine (10_state.md), its reset value (R36), and the reasons a step can stop. -/

namespace Sys2Proof.Machine

/-- `run_state` (10_state.md R20). -/
inductive RunState where
  | running
  | halted
  | faulted
  deriving DecidableEq, Repr

/-- `fault_cause` (10_state.md R21, 60_exceptions.md R194). -/
inductive FaultCause where
  | none
  | unknownInstruction
  | outOfBoundsAccess
  | invalidBranchEncoding
  deriving DecidableEq, Repr

/-- The ten statistics counters; unbounded naturals (10_state.md R22 to R26; log 13). -/
structure Counters where
  instFetches : Nat
  memReads : Nat
  memWrites : Nat
  branches : Nat
  takenBranches : Nat
  cacheReads : Nat
  cacheWrites : Nat
  hits : Nat
  misses : Nat
  writeBacks : Nat
  deriving DecidableEq, Repr

/-- A way number of a set, the values of `last_used_way` (10_state.md R30, R34). -/
inductive WayIdx where
  | way0
  | way1
  deriving DecidableEq, Repr

/-- The metadata of one way (10_state.md R31 to R33). -/
structure CacheWay where
  valid : Bool
  dirty : Bool
  tag : Tag
  deriving DecidableEq, Repr

/-- The metadata of one set: two ways and the replacement bit (10_state.md R30, R34). -/
structure CacheSet where
  way0 : CacheWay
  way1 : CacheWay
  lastUsedWay : WayIdx
  deriving DecidableEq, Repr

/-- Memory as the words written or preset so far, each with its word index, indices strictly rising. An index not
listed holds `MEM0`'s word (10_state.md R28, R36; 20_memory.md R49; log 5, 6). -/
abbrev Memory := List (Nat × Word)

/-- All the state of the hardware (10_state.md R10 to R37). -/
structure State where
  /-- `x[0]` to `x[31]` (R10). -/
  regs : Vector Word 32
  /-- The fetch pointer (R15). -/
  fp : Word
  /-- The execute pointer (R16). -/
  ep : Word
  /-- `run_state` (R20). -/
  runState : RunState
  /-- `fault_cause` (R21). -/
  faultCause : FaultCause
  /-- `fault_info` (R21). -/
  faultInfo : Word
  /-- The statistics counters (R22). -/
  counters : Counters
  /-- Memory (R28). -/
  mem : Memory
  /-- The cache directory, 64 sets (R30). -/
  cache : Vector CacheSet 64
  deriving DecidableEq, Repr

/-- Reasons for a machine fault. THERE IS NONE: a fatal condition of the spec is a next state whose `run_state`
is `Faulted` (60_exceptions.md R190; log 8), so no constructor is raised by anyone. Safe: nothing stops that way. -/
inductive Fault where
  deriving DecidableEq, Repr

/-- Reasons for a refusal. -/
inductive Refusal where
  /-- An instruction without a meaning; raised by an arm of `exec` only. Safe: nothing is claimed of it. No arm of
  this model raises it. -/
  | notModelled (mnemonic : String)
  /-- A launch with more than 256 program words does not take place (70_reset_and_hazards.md R215); raised by
  `State.launch`, never by an instruction. Safe: there is no run to claim anything of. -/
  | loadOverflow
  deriving DecidableEq, Repr

/-- All counters zero (10_state.md R36). -/
def Counters.zero : Counters where
  instFetches := 0
  memReads := 0
  memWrites := 0
  branches := 0
  takenBranches := 0
  cacheReads := 0
  cacheWrites := 0
  hits := 0
  misses := 0
  writeBacks := 0

/-- A way after reset: invalid, clean, tag 0 (10_state.md R36). -/
def CacheWay.empty : CacheWay := { valid := false, dirty := false, tag := 0 }

/-- A set after reset (10_state.md R36). -/
def CacheSet.empty : CacheSet := { way0 := .empty, way1 := .empty, lastUsedWay := .way0 }

/-- The machine right after reset, before the loader runs (10_state.md R36, 70_reset_and_hazards.md R211): no
memory word is listed, so every word is `MEM0`'s. -/
def State.reset : State where
  regs := Vector.replicate 32 0
  fp := 0
  ep := 0
  runState := .running
  faultCause := .none
  faultInfo := 0
  counters := .zero
  mem := []
  cache := Vector.replicate 64 .empty

end Sys2Proof.Machine
end

