-- ==== Sys2Proof/Machine/Ops.lean ====
section
/-! DEFINITION. The named operations over the state: the register file with its zero gate, memory and its bounds
check, fetch, the pointers, the counters, and raising a fatal condition. -/

namespace Sys2Proof.Machine

/-! ## The register file (10_state.md R10 to R13) -/

/-- `x[i]`: register 0 reads as 0 (10_state.md R11). -/
def State.readReg (s : State) (i : RegIdx) : Word :=
  if i = 0 then 0 else s.regs[i.toNat]'i.isLt

/-- `x[i] <- v` through the zero-register gate: a write to register 0 stores nothing (10_state.md R12,
40_execution_cycle.md R94). -/
def State.writeReg (s : State) (i : RegIdx) (v : Word) : State :=
  { s with regs := if i = 0 then s.regs else s.regs.set i.toNat v i.isLt }

/-! ## The counters (10_state.md R22 to R26) -/

/-- One instruction fetched (10_state.md R23). -/
def Counters.countFetch (c : Counters) : Counters := { c with instFetches := c.instFetches + 1 }

/-- One data word read (10_state.md R24). -/
def Counters.countMemRead (c : Counters) : Counters := { c with memReads := c.memReads + 1 }

/-- One data word written (10_state.md R24). -/
def Counters.countMemWrite (c : Counters) : Counters := { c with memWrites := c.memWrites + 1 }

/-- One branch executed, and one taken if it was (10_state.md R25). -/
def Counters.countBranch (taken : Bool) (c : Counters) : Counters :=
  { c with
    branches := c.branches + 1
    takenBranches := if taken then c.takenBranches + 1 else c.takenBranches }

/-! ## Memory (20_memory.md) -/

/-- The parameter `MEM_WORDS`: capacity of memory in words (00_scope.md R4, 10_state.md R28). -/
def memWords : Nat := configuration.memWords

/-- The word listed at an index, if any. -/
def Memory.lookup : Memory → Nat → Option Word
  | [], _ => none
  | (k, v) :: rest, i => if k = i then some v else Memory.lookup rest i

/-- List a word at an index, keeping the indices strictly rising. -/
def Memory.store : Memory → Nat → Word → Memory
  | [], i, v => [(i, v)]
  | (k, u) :: rest, i, v =>
    if i < k then (i, v) :: (k, u) :: rest
    else if i = k then (i, v) :: rest
    else (k, u) :: Memory.store rest i v

/-- Are the indices strictly rising, from `lo` up, and inside memory? -/
def Memory.wfFrom : Nat → Memory → Bool
  | _, [] => true
  | lo, (k, _) :: rest => decide (lo ≤ k) && decide (k < memWords) && Memory.wfFrom (k + 1) rest

/-- The canonical form: strictly rising indices below `MEM_WORDS` (log 5). -/
def Memory.wf (m : Memory) : Bool := Memory.wfFrom 0 m

/-- `mem[i]`: the listed word, else `MEM0`'s (10_state.md R36, 20_memory.md R50 item 3). THE definition of what an
unlisted index reads as. -/
def Memory.word (m : Memory) (i : Nat) : Word := (m.lookup i).getD (configuration.mem0 i)

/-- `widx(addr)`, the word an address selects: the low two bits are dropped (20_memory.md R41, R44). -/
def widx (addr : Word) : Nat := (addr >>> 2).toNat

/-- The bounds check (20_memory.md R41). -/
abbrev inBounds (addr : Word) : Prop := widx addr < memWords

/-- The word an address selects in this state; `none` out of bounds. It changes nothing (20_memory.md R41, R44). -/
def State.wordAt (s : State) (addr : Word) : Option Word :=
  if inBounds addr then some (s.mem.word (widx addr)) else none

/-- `Fetch(addr)`; `none` is `OutOfBoundsAccess(addr)` (20_memory.md R48). -/
def State.fetch (s : State) (addr : Word) : Option Word := s.wordAt addr

/-- `MemRead(addr, 4)`; `none` is `OutOfBoundsAccess(addr)` (20_memory.md R42). -/
def State.memRead (s : State) (addr : Word) : Option (Word × State) :=
  match s.wordAt addr with
  | some v => some (v, { s with counters := s.counters.countMemRead })
  | none => none

/-- Replace the whole word an address selects; the address is in bounds (20_memory.md R44). -/
def State.setWord (s : State) (addr : Word) (v : Word) : State :=
  { s with mem := s.mem.store (widx addr) v }

/-- `MemWrite(addr, 4, v)`; `none` is `OutOfBoundsAccess(addr)` (20_memory.md R43). -/
def State.memWrite (s : State) (addr : Word) (v : Word) : Option State :=
  if inBounds addr then some { s.setWord addr v with counters := s.counters.countMemWrite } else none

/-! ## The pointers -/

/-- The updates of step 1 of a cycle whose fetch succeeded (40_execution_cycle.md R91). -/
def State.afterFetch (s : State) : State :=
  { s with ep := s.fp, fp := s.fp + 4, counters := s.counters.countFetch }

/-- A branch executed, and if taken `fp <- target` (43_branch.md R140, R141, R143). -/
def State.branch (s : State) (taken : Bool) (target : Word) : State :=
  { s with
    counters := s.counters.countBranch taken
    fp := if taken then target else s.fp }

/-! ## The run state -/

/-- `raise C(info)`: the one way a fatal condition is taken (60_exceptions.md R190). There is no return from it
(R198). -/
def State.raise (s : State) (cause : FaultCause) (info : Word) : State :=
  { s with runState := .faulted, faultCause := cause, faultInfo := info }

/-- The halt signal taken at step 6 (40_execution_cycle.md R95, R105). -/
def State.halt (s : State) : State := { s with runState := .halted }

/-- The number of a fault cause (60_exceptions.md R194). -/
def FaultCause.code : FaultCause → Nat
  | .none => 0
  | .unknownInstruction => 1
  | .outOfBoundsAccess => 2
  | .invalidBranchEncoding => 3

end Sys2Proof.Machine
end

