-- ==== Sys2Proof/Machine/Operands.lean ====
section
/-! DEFINITION. The operand forms: immediates and displacements (30_encoding.md R73 to R75), the operand-B
multiplexer (40_execution_cycle.md R98), and the branch target (43_branch.md R140). -/

namespace Sys2Proof.Machine

/-- The 32-bit value of `imm16` under a choice of `IMM16_EXT` (30_encoding.md R73, 92_eei_decisions.md D4). -/
def extendImm (e : Imm16Ext) (imm : Imm16) : Word :=
  match e with
  | .zero => imm.zeroExtend 32
  | .sign => imm.signExtend 32

/-- The operand-B multiplexer's three inputs, its select `bsel` together with the field it uses
(40_execution_cycle.md R98). -/
inductive OperandB where
  /-- `IMM`. -/
  | imm (v : Imm16)
  /-- `REG`. -/
  | reg (s2 : RegIdx)
  /-- `SCALED`. -/
  | scaled (s2 : RegIdx)
  deriving DecidableEq, Repr

/-- Operand B under a parameter record: the extended immediate, `x[s2]`, or `x[s2] << 2`
(40_execution_cycle.md R98). -/
def State.operandBWith (s : State) (p : Params) : OperandB → Word
  | .imm v => extendImm p.imm16Ext v
  | .reg s2 => s.readReg s2
  | .scaled s2 => s.readReg s2 <<< 2

/-- Operand B on this machine. -/
def State.operandB (s : State) (b : OperandB) : Word := s.operandBWith params b

/-- The byte offset of `br`, `sext_26(disp26) << 2` (30_encoding.md R74). -/
def brOffset (disp : Disp26) : Word := disp.signExtend 32 <<< 2

/-- The byte offset of `bcnd`, `sext_16(disp16) << 2` (30_encoding.md R75). -/
def bcndOffset (disp : Disp16) : Word := disp.signExtend 32 <<< 2

/-- The branch target, relative to the execute pointer and modulo 2^32 (43_branch.md R140). -/
def State.branchTarget (s : State) (offset : Word) : Word := s.ep + offset

end Sys2Proof.Machine
end

