-- ==== Sys2Proof/Machine/Alu.lean ====
section
/-! DEFINITION. The ALU (40_execution_cycle.md R97, R99). It has no flag outputs. -/

namespace Sys2Proof.Machine

/-- The function select (40_execution_cycle.md R99). -/
inductive AluFn where
  | add
  | sub
  | sra
  | srl
  | sll
  | ror
  deriving DecidableEq, Repr

/-- `ror32(v, n)` for `1 <= n <= 31` (00_scope.md R7). -/
def ror32 (v : Word) (n : Nat) : Word := (v >>> n) ||| (v <<< (32 - n))

/-- The result for operands A and B and the literal count `n` (40_execution_cycle.md R99). A rotate by 0 copies A:
`ROT0 = identity` (44_bitfield.md R154; log 4). -/
def alu (fn : AluFn) (a b : Word) (n : ShiftCount) : Word :=
  match fn with
  | .add => a + b
  | .sub => a - b
  | .sra => a.sshiftRight n.toNat
  | .srl => a >>> n.toNat
  | .sll => a <<< n.toNat
  | .ror => if n = 0 then a else ror32 a n.toNat

/-- The effective address `EA(mode)` of `ld`, `st` and `lda` under a parameter record (41_load_store.md R110). -/
def State.effectiveAddressWith (s : State) (p : Params) (s1 : RegIdx) (b : OperandB) : Word :=
  alu .add (s.readReg s1) (s.operandBWith p b) 0

/-- The effective address on this machine. -/
def State.effectiveAddress (s : State) (s1 : RegIdx) (b : OperandB) : Word := s.effectiveAddressWith params s1 b

end Sys2Proof.Machine
end

