-- ==== Sys2Proof/Machine/Arith.lean ====
section
/-! DEFINITION. `add` and `sub` (42_arith.md). -/

namespace Sys2Proof.Machine

/-- `x[d] <- A fn B` with `A = x[s1]` and B from the multiplexer, under a parameter record
(40_execution_cycle.md R98 to R100). -/
def State.arithWith (s : State) (p : Params) (fn : AluFn) (d s1 : RegIdx) (b : OperandB) : State :=
  s.writeReg d (alu fn (s.readReg s1) (s.operandBWith p b) 0)

/-- The same on this machine. -/
def State.arith (s : State) (fn : AluFn) (d s1 : RegIdx) (b : OperandB) : State := s.arithWith params fn d s1 b

/-- `add` immediate under a parameter record (42_arith.md R131). -/
def execAddImmWith (p : Params) (d s1 : RegIdx) (imm : Imm16) (s : State) : Host.Outcome State Fault Refusal :=
  .next (s.arithWith p .add d s1 (.imm imm))

/-- `add` immediate on this machine (42_arith.md R131). -/
def execAddImm (d s1 : RegIdx) (imm : Imm16) (s : State) : Host.Outcome State Fault Refusal :=
  execAddImmWith params d s1 imm s

/-- `add` register (42_arith.md R132). -/
def execAddReg (d s1 s2 : RegIdx) (s : State) : Host.Outcome State Fault Refusal :=
  .next (s.arith .add d s1 (.reg s2))

/-- `sub` immediate under a parameter record (42_arith.md R133). -/
def execSubImmWith (p : Params) (d s1 : RegIdx) (imm : Imm16) (s : State) : Host.Outcome State Fault Refusal :=
  .next (s.arithWith p .sub d s1 (.imm imm))

/-- `sub` immediate on this machine (42_arith.md R133). -/
def execSubImm (d s1 : RegIdx) (imm : Imm16) (s : State) : Host.Outcome State Fault Refusal :=
  execSubImmWith params d s1 imm s

/-- `sub` register (42_arith.md R134). -/
def execSubReg (d s1 s2 : RegIdx) (s : State) : Host.Outcome State Fault Refusal :=
  .next (s.arith .sub d s1 (.reg s2))

end Sys2Proof.Machine
end

