-- ==== Sys2Proof/Machine/BitField.lean ====
section
/-! DEFINITION. `ext`, `extu`, `mak` and `rot` (44_bitfield.md): the count is the literal field, no register is
read through it (R150). -/

namespace Sys2Proof.Machine

/-- `x[d] <- fn(x[s1], n)` (40_execution_cycle.md R99, R100; operand B is not used). -/
def State.shift (s : State) (fn : AluFn) (d s1 : RegIdx) (n : ShiftCount) : State :=
  s.writeReg d (alu fn (s.readReg s1) 0 n)

/-- `ext` (44_bitfield.md R151). -/
def execExt (d s1 : RegIdx) (n : ShiftCount) (s : State) : Host.Outcome State Fault Refusal :=
  .next (s.shift .sra d s1 n)

/-- `extu` (44_bitfield.md R152). -/
def execExtu (d s1 : RegIdx) (n : ShiftCount) (s : State) : Host.Outcome State Fault Refusal :=
  .next (s.shift .srl d s1 n)

/-- `mak` (44_bitfield.md R153). -/
def execMak (d s1 : RegIdx) (n : ShiftCount) (s : State) : Host.Outcome State Fault Refusal :=
  .next (s.shift .sll d s1 n)

/-- `rot` (44_bitfield.md R154). -/
def execRot (d s1 : RegIdx) (n : ShiftCount) (s : State) : Host.Outcome State Fault Refusal :=
  .next (s.shift .ror d s1 n)

end Sys2Proof.Machine
end

