-- ==== Sys2Proof/Machine/Flags.lean ====
section
/-! DEFINITION. The one flag computation of the hardware: the transient 2-bit flag of `bcnd` and its condition
mask (43_branch.md R142, 30_encoding.md R86). No flag is kept (10_state.md R37). -/

namespace Sys2Proof.Machine

/-- `(sign_bit << 1) | is_zero`, a number 0 to 3 (43_branch.md R142). -/
def conditionFlag (v : Word) : Nat := v.msb.toNat <<< 1 ||| (if v = 0 then 1 else 0)

/-- `(mask >> flag) & 1` (43_branch.md R142). -/
def conditionHolds (mask : CondMask) (v : Word) : Bool := mask.getLsbD (conditionFlag v)

/-- The named conditions of `bcnd` (30_encoding.md R86). -/
inductive CondName where
  | never
  | gt0
  | eq0
  | ge0
  | lt0
  | ne0
  | le0
  | always
  deriving DecidableEq, Repr

/-- The smallest mask with each meaning (30_encoding.md R86). -/
def CondName.mask : CondName → CondMask
  | .never => 0
  | .gt0 => 1
  | .eq0 => 2
  | .ge0 => 3
  | .lt0 => 4
  | .ne0 => 5
  | .le0 => 6
  | .always => 7

end Sys2Proof.Machine
end

