-- ==== Sys2Proof/Machine/Branch.lean ====
section
/-! DEFINITION. `br` and `bcnd` (43_branch.md). Both formats have no ignored bit, so the offending word that
`InvalidBranchEncoding` records is the instruction's encoding (60_exceptions.md R193; log 9). -/

namespace Sys2Proof.Machine

/-- `br` under a parameter record: the zero check first, then always taken (43_branch.md R141, R145). -/
def execBrWith (p : Params) (disp : Disp26) (s : State) : Host.Outcome State Fault Refusal :=
  if disp = 0 then .next (s.raise .invalidBranchEncoding (encodeWith p (.br disp)))
  else .next (s.branch true (s.branchTarget (brOffset disp)))

/-- `br` on this machine (43_branch.md R141, R145). -/
def execBr (disp : Disp26) (s : State) : Host.Outcome State Fault Refusal := execBrWith params disp s

/-- `bcnd` under a parameter record: the zero check first, whether or not the condition holds
(43_branch.md R143, R145). -/
def execBcndWith (p : Params) (mask : CondMask) (s1 : RegIdx) (disp : Disp16) (s : State) :
    Host.Outcome State Fault Refusal :=
  if disp = 0 then .next (s.raise .invalidBranchEncoding (encodeWith p (.bcnd mask s1 disp)))
  else .next (s.branch (conditionHolds mask (s.readReg s1)) (s.branchTarget (bcndOffset disp)))

/-- `bcnd` on this machine (43_branch.md R143, R145). -/
def execBcnd (mask : CondMask) (s1 : RegIdx) (disp : Disp16) (s : State) : Host.Outcome State Fault Refusal :=
  execBcndWith params mask s1 disp s

end Sys2Proof.Machine
end

