-- ==== Sys2Proof/Machine/CacheDirectory.lean ====
section
/-! DEFINITION. The cache directory's one operation, `CacheAccess` (45_cache_directory.md). -/

namespace Sys2Proof.Machine

/-- The kind of a directory access (45_cache_directory.md R160). -/
inductive AccessKind where
  | read
  | write
  deriving DecidableEq, Repr

/-- The result of a directory access (45_cache_directory.md R164). -/
inductive AccessResult where
  | hit
  | miss
  | missWithWriteBack
  deriving DecidableEq, Repr

/-- `set_index = (addr >> INDEX_SHIFT) & INDEX_MASK`, address bits 8 to 3 (45_cache_directory.md R161). -/
def setIndex (addr : Word) : SetIdx :=
  ((addr >>> configuration.indexShift) &&& BitVec.ofNat 32 configuration.indexMask).setWidth 6

/-- `line_tag = addr >> TAG_SHIFT`, address bits 31 to 9 (45_cache_directory.md R161). -/
def lineTag (addr : Word) : Tag := (addr >>> configuration.tagShift).setWidth 23

/-- The way that is not this one (45_cache_directory.md R170: `1 - last_used_way`). -/
def WayIdx.other : WayIdx → WayIdx
  | .way0 => .way1
  | .way1 => .way0

/-- A way of a set. -/
def CacheSet.way (c : CacheSet) : WayIdx → CacheWay
  | .way0 => c.way0
  | .way1 => c.way1

/-- Replace a way and mark it `last_used_way` (45_cache_directory.md R167, R168, R171). -/
def CacheSet.use (c : CacheSet) (w : WayIdx) (line : CacheWay) : CacheSet :=
  match w with
  | .way0 => { c with way0 := line, lastUsedWay := .way0 }
  | .way1 => { c with way1 := line, lastUsedWay := .way1 }

/-- A way matches if it is valid and holds the tag (45_cache_directory.md R167). -/
def CacheWay.holds (l : CacheWay) (t : Tag) : Bool := l.valid && l.tag == t

/-- The probe: way 0 first, then way 1 (45_cache_directory.md R167, R168). -/
def CacheSet.probe (c : CacheSet) (t : Tag) : Option WayIdx :=
  if c.way0.holds t then some .way0
  else if c.way1.holds t then some .way1
  else none

/-- The victim of a miss: an invalid way, way 0 before way 1, else the way not last used
(45_cache_directory.md R169, R170). -/
def CacheSet.victim (c : CacheSet) : WayIdx :=
  if c.way0.valid = false then .way0
  else if c.way1.valid = false then .way1
  else c.lastUsedWay.other

/-- A write makes the resident way dirty, a read leaves it (45_cache_directory.md R172). -/
def CacheWay.dirtiedBy (l : CacheWay) (kind : AccessKind) : CacheWay :=
  match kind with
  | .read => l
  | .write => { l with dirty := true }

/-- The line a miss installs: valid and clean (45_cache_directory.md R171). -/
def CacheWay.installed (t : Tag) : CacheWay := { valid := true, dirty := false, tag := t }

/-- What `CacheAccess` does within the set it selects: the new set and the result
(45_cache_directory.md R165). -/
def CacheSet.access (c : CacheSet) (t : Tag) (kind : AccessKind) : CacheSet × AccessResult :=
  match c.probe t with
  | some w => (c.use w ((c.way w).dirtiedBy kind), .hit)
  | none =>
    (c.use c.victim ((CacheWay.installed t).dirtiedBy kind),
      if (c.way c.victim).valid && (c.way c.victim).dirty then .missWithWriteBack else .miss)

/-- The directory's counters after an access (45_cache_directory.md R165, R166, R169, R171). -/
def Counters.countAccess (kind : AccessKind) (result : AccessResult) (c : Counters) : Counters :=
  { c with
    cacheReads := if kind = .read then c.cacheReads + 1 else c.cacheReads
    cacheWrites := if kind = .write then c.cacheWrites + 1 else c.cacheWrites
    hits := if result = .hit then c.hits + 1 else c.hits
    misses := if result = .hit then c.misses else c.misses + 1
    writeBacks := if result = .missWithWriteBack then c.writeBacks + 1 else c.writeBacks }

/-- Set `i` of the directory. -/
def State.cacheSet (s : State) (i : SetIdx) : CacheSet := s.cache[i.toNat]'i.isLt

/-- The result `CacheAccess` returns; no instruction uses it (45_cache_directory.md R164, 41_load_store.md R120). -/
def State.accessResult (s : State) (addr : Word) (kind : AccessKind) : AccessResult :=
  ((s.cacheSet (setIndex addr)).access (lineTag addr) kind).2

/-- `CacheAccess(addr, kind)`: the state after it (45_cache_directory.md R165). It never fails (R173). -/
def State.cacheAccess (s : State) (addr : Word) (kind : AccessKind) : State :=
  { s with
    cache := s.cache.set (setIndex addr).toNat
      ((s.cacheSet (setIndex addr)).access (lineTag addr) kind).1 (setIndex addr).isLt
    counters := s.counters.countAccess kind (s.accessResult addr kind) }

/-- The call of the directory by `ld` and `st`, made while `CACHE_ACTIVE` holds, which it does
(45_cache_directory.md R178; log 15). -/
def State.consultDirectory (s : State) (addr : Word) (kind : AccessKind) : State :=
  if configuration.cacheActive then s.cacheAccess addr kind else s

/-- The byte address of the line a way of set `i` holds (45_cache_directory.md R171). -/
def CacheWay.lineAddress (l : CacheWay) (i : SetIdx) : Word :=
  (l.tag.zeroExtend 32 <<< configuration.tagShift) ||| (i.zeroExtend 32 <<< configuration.indexShift)

end Sys2Proof.Machine
end

