-- ==== Sys2Proof/Machine/LoadStore.lean ====
section
/-! DEFINITION. `ld`, `st` and `lda` in their three addressing modes (41_load_store.md). -/

namespace Sys2Proof.Machine

/-- A load from `addr` into `x[d]`: memory first, then the directory (41_load_store.md R111, R120, R121). -/
def State.load (s : State) (d : RegIdx) (addr : Word) : State :=
  match s.memRead addr with
  | some (v, s') => (s'.writeReg d v).consultDirectory addr .read
  | none => s.raise .outOfBoundsAccess addr

/-- A store of `x[d]` to `addr`: memory first, then the directory (41_load_store.md R114, R120, R121). -/
def State.storeTo (s : State) (d : RegIdx) (addr : Word) : State :=
  match s.memWrite addr (s.readReg d) with
  | some s' => s'.consultDirectory addr .write
  | none => s.raise .outOfBoundsAccess addr

/-- `ld` immediate under a parameter record (41_load_store.md R111). -/
def execLdImmWith (p : Params) (d s1 : RegIdx) (imm : Imm16) (s : State) : Host.Outcome State Fault Refusal :=
  .next (s.load d (s.effectiveAddressWith p s1 (.imm imm)))

/-- `ld` immediate on this machine (41_load_store.md R111). -/
def execLdImm (d s1 : RegIdx) (imm : Imm16) (s : State) : Host.Outcome State Fault Refusal :=
  execLdImmWith params d s1 imm s

/-- `ld` register (41_load_store.md R112). -/
def execLdReg (d s1 s2 : RegIdx) (s : State) : Host.Outcome State Fault Refusal :=
  .next (s.load d (s.effectiveAddress s1 (.reg s2)))

/-- `ld` scaled (41_load_store.md R113). -/
def execLdScaled (d s1 s2 : RegIdx) (s : State) : Host.Outcome State Fault Refusal :=
  .next (s.load d (s.effectiveAddress s1 (.scaled s2)))

/-- `st` immediate under a parameter record (41_load_store.md R114). -/
def execStImmWith (p : Params) (d s1 : RegIdx) (imm : Imm16) (s : State) : Host.Outcome State Fault Refusal :=
  .next (s.storeTo d (s.effectiveAddressWith p s1 (.imm imm)))

/-- `st` immediate on this machine (41_load_store.md R114). -/
def execStImm (d s1 : RegIdx) (imm : Imm16) (s : State) : Host.Outcome State Fault Refusal :=
  execStImmWith params d s1 imm s

/-- `st` register (41_load_store.md R115). -/
def execStReg (d s1 s2 : RegIdx) (s : State) : Host.Outcome State Fault Refusal :=
  .next (s.storeTo d (s.effectiveAddress s1 (.reg s2)))

/-- `st` scaled (41_load_store.md R116). -/
def execStScaled (d s1 s2 : RegIdx) (s : State) : Host.Outcome State Fault Refusal :=
  .next (s.storeTo d (s.effectiveAddress s1 (.scaled s2)))

/-- `lda` immediate under a parameter record (41_load_store.md R117). -/
def execLdaImmWith (p : Params) (d s1 : RegIdx) (imm : Imm16) (s : State) : Host.Outcome State Fault Refusal :=
  .next (s.writeReg d (s.effectiveAddressWith p s1 (.imm imm)))

/-- `lda` immediate on this machine (41_load_store.md R117). -/
def execLdaImm (d s1 : RegIdx) (imm : Imm16) (s : State) : Host.Outcome State Fault Refusal :=
  execLdaImmWith params d s1 imm s

/-- `lda` register (41_load_store.md R118). -/
def execLdaReg (d s1 s2 : RegIdx) (s : State) : Host.Outcome State Fault Refusal :=
  .next (s.writeReg d (s.effectiveAddress s1 (.reg s2)))

/-- `lda` scaled (41_load_store.md R119). -/
def execLdaScaled (d s1 s2 : RegIdx) (s : State) : Host.Outcome State Fault Refusal :=
  .next (s.writeReg d (s.effectiveAddress s1 (.scaled s2)))

end Sys2Proof.Machine
end

