-- ==== Sys2Proof/Machine/System.lean ====
section
/-! DEFINITION. `halt` (40_execution_cycle.md R105). -/

namespace Sys2Proof.Machine

/-- `halt` (40_execution_cycle.md R105). -/
def execHalt (s : State) : Host.Outcome State Fault Refusal := .next s.halt

end Sys2Proof.Machine
end

