-- ==== Sys2Proof/Machine/Cycle.lean ====
section
/-! DEFINITION. The cycle of the engine over any dispatch and any handlers (40_execution_cycle.md R90 to R96, R102),
and the machine that takes `OPC`, `IMM16_EXT` and `ROT0` as an argument (00_scope.md R4, 92_eei_decisions.md "Points
left OPEN"). `step` (Step.lean) is the same cycle under the defaults (`stepWith_params`, Laws/Step.lean). -/

namespace Sys2Proof.Machine

/-- One step (40_execution_cycle.md R102). While `Running` it is one cycle; in `Halted` and `Faulted` no cycle is
taken and the state is frozen (10_state.md R20; log 7). -/
def runCycle (select : Word → Selection) (handler : Instr → State → Host.Outcome State Fault Refusal) (s : State) :
    Host.Outcome State Fault Refusal :=
  match s.runState with
  | .running =>
    match s.fetch s.fp with
    | none => .next (s.raise .outOfBoundsAccess s.fp)
    | some iw =>
      match select iw with
      | .unknownInstruction => .next (s.afterFetch.raise .unknownInstruction iw)
      | .form i => handler i s.afterFetch
  | .halted => .next s
  | .faulted => .next s

/-- The handler of each form under a parameter record (40_execution_cycle.md R93). A form whose effect no parameter
changes has one meaning for all. -/
def execWith (p : Params) : Instr → State → Host.Outcome State Fault Refusal
  | .halt => execHalt
  | .ldImm d s1 imm => execLdImmWith p d s1 imm
  | .ldReg d s1 s2 => execLdReg d s1 s2
  | .ldScaled d s1 s2 => execLdScaled d s1 s2
  | .stImm d s1 imm => execStImmWith p d s1 imm
  | .stReg d s1 s2 => execStReg d s1 s2
  | .stScaled d s1 s2 => execStScaled d s1 s2
  | .ldaImm d s1 imm => execLdaImmWith p d s1 imm
  | .ldaReg d s1 s2 => execLdaReg d s1 s2
  | .ldaScaled d s1 s2 => execLdaScaled d s1 s2
  | .addImm d s1 imm => execAddImmWith p d s1 imm
  | .addReg d s1 s2 => execAddReg d s1 s2
  | .subImm d s1 imm => execSubImmWith p d s1 imm
  | .subReg d s1 s2 => execSubReg d s1 s2
  | .br disp => execBrWith p disp
  | .bcnd mask s1 disp => execBcndWith p mask s1 disp
  | .ext d s1 n => execExt d s1 n
  | .extu d s1 n => execExtu d s1 n
  | .mak d s1 n => execMak d s1 n
  | .rot d s1 n => execRot d s1 n

/-- One step of the machine with this opcode table, this extension of the immediate and this `ROT0`. -/
def stepWith (p : Params) (s : State) : Host.Outcome State Fault Refusal := runCycle (decodeWith p) (execWith p) s

end Sys2Proof.Machine
end

