-- ==== Sys2Proof/Machine/Dispatch.lean ====
section
/-! DEFINITION. The dispatch of an instruction form to its handler (40_execution_cycle.md R93, R102). `exec` runs
on the state after step 1 of the cycle: `ep` is the instruction's address, `fp` the next word's (log 24). -/

namespace Sys2Proof.Machine

def exec (i : Instr) (s : State) : Host.Outcome State Fault Refusal :=
  match i with
  | .halt => Sys2Proof.Machine.execHalt s
  | .ldImm d s1 imm => Sys2Proof.Machine.execLdImm d s1 imm s
  | .ldReg d s1 s2 => Sys2Proof.Machine.execLdReg d s1 s2 s
  | .ldScaled d s1 s2 => Sys2Proof.Machine.execLdScaled d s1 s2 s
  | .stImm d s1 imm => Sys2Proof.Machine.execStImm d s1 imm s
  | .stReg d s1 s2 => Sys2Proof.Machine.execStReg d s1 s2 s
  | .stScaled d s1 s2 => Sys2Proof.Machine.execStScaled d s1 s2 s
  | .ldaImm d s1 imm => Sys2Proof.Machine.execLdaImm d s1 imm s
  | .ldaReg d s1 s2 => Sys2Proof.Machine.execLdaReg d s1 s2 s
  | .ldaScaled d s1 s2 => Sys2Proof.Machine.execLdaScaled d s1 s2 s
  | .addImm d s1 imm => Sys2Proof.Machine.execAddImm d s1 imm s
  | .addReg d s1 s2 => Sys2Proof.Machine.execAddReg d s1 s2 s
  | .subImm d s1 imm => Sys2Proof.Machine.execSubImm d s1 imm s
  | .subReg d s1 s2 => Sys2Proof.Machine.execSubReg d s1 s2 s
  | .br disp => Sys2Proof.Machine.execBr disp s
  | .bcnd mask s1 disp => Sys2Proof.Machine.execBcnd mask s1 disp s
  | .ext d s1 n => Sys2Proof.Machine.execExt d s1 n s
  | .extu d s1 n => Sys2Proof.Machine.execExtu d s1 n s
  | .mak d s1 n => Sys2Proof.Machine.execMak d s1 n s
  | .rot d s1 n => Sys2Proof.Machine.execRot d s1 n s

end Sys2Proof.Machine
end

