-- ==== Sys2Proof/Machine/Step.lean ====
section
/-! DEFINITION. One cycle of the engine (40_execution_cycle.md R90 to R96, R102), and the placing of an instruction
where the next cycle fetches. -/

namespace Sys2Proof.Machine

/-- One step: the cycle with this machine's dispatch and handlers (40_execution_cycle.md R102). -/
def step (s : State) : Host.Outcome State Fault Refusal := runCycle decode exec s

/-- `s` with an instruction of one 32-bit word, numbered as the opcode table numbers its bits, stored at the word
`fp` selects (the loader's act, 70_reset_and_hazards.md R214; log 11). Nothing is stored where `fp` is out of
bounds, since no word is there (log 20). -/
def State.withFetchWord (s : State) (nbits w : Nat) : State :=
  if inBounds s.fp then s.setWord s.fp (BitVec.ofNat 32 (w % 2 ^ nbits)) else s

end Sys2Proof.Machine
end

