-- ==== Sys2Proof/Machine/HostOps.lean ====
section
/-! DEFINITION. What the host may do before and after a run (60_exceptions.md R202, 70_reset_and_hazards.md R210
to R215): reset, preset a data word, load a program, launch, read the report. No step calls these. -/

namespace Sys2Proof.Machine

/-- The parameter `LOAD_MAX_WORDS` (00_scope.md R4, 70_reset_and_hazards.md R215). -/
def loadMaxWords : Nat := configuration.loadMaxWords

/-- Reset, from any state: everything but `mem` takes its reset value (70_reset_and_hazards.md R210, R213). -/
def State.applyReset (s : State) : State := { State.reset with mem := s.mem }

/-- A harness presets a data word before the run (70_reset_and_hazards.md R213); no counter moves. -/
def State.presetWord (s : State) (i : Nat) (v : Word) : State := { s with mem := s.mem.store i v }

/-- The loader, from word index `i` up (70_reset_and_hazards.md R214). -/
def State.loadFrom (s : State) (i : Nat) : List Word → State
  | [] => s
  | w :: rest => State.loadFrom (s.presetWord i w) (i + 1) rest

/-- The loader: word `j` of the program goes to `mem[j]`, and nothing else changes
(70_reset_and_hazards.md R214). -/
def State.loadProgram (s : State) (program : List Word) : State := s.loadFrom 0 program

/-- Reset and load, the launch of a run; more than 256 words and it does not take place
(70_reset_and_hazards.md R215, 60_exceptions.md R203; log 19). -/
def State.launch (s : State) (program : List Word) : Host.Outcome State Fault Refusal :=
  if program.length ≤ loadMaxWords then .next (s.applyReset.loadProgram program)
  else .refused .loadOverflow

/-- The final report: instruction fetches, data words read and written, branches executed and taken, directory
reads, writes, hits, misses and write-backs (60_exceptions.md R202). -/
def State.report (s : State) : List Nat :=
  [s.counters.instFetches, s.counters.memReads, s.counters.memWrites, s.counters.branches,
    s.counters.takenBranches, s.counters.cacheReads, s.counters.cacheWrites, s.counters.hits,
    s.counters.misses, s.counters.writeBacks]

end Sys2Proof.Machine
end

