-- ==== Sys2Proof/Safety.lean ====
section
/-! DEFINITION. What counts as a good end of a run, the invariants of the machine, and the vocabulary the
statements use: what an instruction leaves unchanged. -/

namespace Sys2Proof

/-! ## Kinds of instructions -/

/-- A form of `ld`. -/
def Instr.isLoad : Instr → Bool
  | .ldImm .. | .ldReg .. | .ldScaled .. => true
  | .halt | .stImm .. | .stReg .. | .stScaled .. | .ldaImm .. | .ldaReg .. | .ldaScaled .. | .addImm ..
  | .addReg .. | .subImm .. | .subReg .. | .br .. | .bcnd .. | .ext .. | .extu .. | .mak .. | .rot .. => false

/-- A form of `st`. -/
def Instr.isStore : Instr → Bool
  | .stImm .. | .stReg .. | .stScaled .. => true
  | .halt | .ldImm .. | .ldReg .. | .ldScaled .. | .ldaImm .. | .ldaReg .. | .ldaScaled .. | .addImm ..
  | .addReg .. | .subImm .. | .subReg .. | .br .. | .bcnd .. | .ext .. | .extu .. | .mak .. | .rot .. => false

/-- `br` or `bcnd`. -/
def Instr.isBranch : Instr → Bool
  | .br .. | .bcnd .. => true
  | .halt | .ldImm .. | .ldReg .. | .ldScaled .. | .stImm .. | .stReg .. | .stScaled .. | .ldaImm ..
  | .ldaReg .. | .ldaScaled .. | .addImm .. | .addReg .. | .subImm .. | .subReg .. | .ext .. | .extu ..
  | .mak .. | .rot .. => false

/-- The data register, the base register and operand B of an instruction that accesses memory. -/
def Instr.dataAccess : Instr → Option (RegIdx × RegIdx × Machine.OperandB)
  | .ldImm d s1 v | .stImm d s1 v => some (d, s1, .imm v)
  | .ldReg d s1 s2 | .stReg d s1 s2 => some (d, s1, .reg s2)
  | .ldScaled d s1 s2 | .stScaled d s1 s2 => some (d, s1, .scaled s2)
  | .halt | .ldaImm .. | .ldaReg .. | .ldaScaled .. | .addImm .. | .addReg .. | .subImm .. | .subReg ..
  | .br .. | .bcnd .. | .ext .. | .extu .. | .mak .. | .rot .. => none

end Sys2Proof

namespace Sys2Proof.Machine

/-! ## The end of a run -/

/-- The only good end of a run (00_scope.md R9, 60_exceptions.md R190). -/
def State.endedWell (s : State) : Bool := s.runState == .halted

/-- `k` steps from `s` end well. -/
def CompletesIn (k : Nat) (s : State) : Prop :=
  ∃ t : State, Sys2Proof.core.run k s = .next t ∧ t.endedWell = true

/-! ## Invariants -/

/-- Memory is in its canonical form (log 5). -/
def State.memoryCanonical (s : State) : Prop := s.mem.wf = true

/-- Slot 0 of the register file stores zero (10_state.md R12). -/
def State.zeroSlotIsZero (s : State) : Prop := s.regs[0] = 0

/-- Both pointers are multiples of 4 (10_state.md R18). -/
def State.pointersAligned (s : State) : Prop := s.fp.toNat % 4 = 0 ∧ s.ep.toNat % 4 = 0

/-- The fault record says `None`, with information 0, exactly while the run is not `Faulted`
(10_state.md R21). -/
def State.recordConsistent (s : State) : Prop :=
  (s.faultCause = .none ↔ s.runState ≠ .faulted) ∧ (s.faultCause = .none → s.faultInfo = 0)

/-- The laws of one set: a dirty way is valid; two valid ways hold different tags; way 0 fills first; once a line
is held the way last used is a valid one; every tag held is that of an in-bounds address
(10_state.md R35, 45_cache_directory.md R161, R175 items 1, 2 and 4). -/
structure CacheSet.Lawful (c : CacheSet) : Prop where
  dirty_valid : ∀ w, (c.way w).dirty = true → (c.way w).valid = true
  tags_differ : c.way0.valid = true → c.way1.valid = true → c.way0.tag ≠ c.way1.tag
  way0_first : c.way1.valid = true → c.way0.valid = true
  used_valid : c.way0.valid = true → (c.way c.lastUsedWay).valid = true
  tag_in_bounds : ∀ w, (c.way w).valid = true → (c.way w).tag.toNat ≤ 0x7FF

/-- Every set of the directory obeys the laws. -/
def State.directoryLawful (s : State) : Prop := ∀ i, (s.cacheSet i).Lawful

/-- The counter invariants (10_state.md R27). -/
structure Counters.Lawful (c : Counters) : Prop where
  hits_misses : c.hits + c.misses = c.cacheReads + c.cacheWrites
  writeBacks_misses : c.writeBacks ≤ c.misses
  taken_branches : c.takenBranches ≤ c.branches
  reads : c.cacheReads = c.memReads
  writes : c.cacheWrites = c.memWrites
  accesses : c.memReads + c.memWrites ≤ c.instFetches

/-- How many ways of a set are dirty. -/
def CacheSet.dirtyCount (c : CacheSet) : Nat := c.way0.dirty.toNat + c.way1.dirty.toNat

/-- How many lines of the directory are dirty. -/
def State.dirtyLines (s : State) : Nat := (s.cache.toList.map CacheSet.dirtyCount).sum

/-- Each write-back answers a `Write` access of its own that no dirty line still stands for
(45_cache_directory.md R175 item 6). -/
def State.writeBacksCovered (s : State) : Prop :=
  s.counters.writeBacks + s.dirtyLines ≤ s.counters.cacheWrites

/-- All the invariants together. -/
structure State.Inv (s : State) : Prop where
  memory : s.memoryCanonical
  zeroSlot : s.zeroSlotIsZero
  pointers : s.pointersAligned
  record : s.recordConsistent
  directory : s.directoryLawful
  counters : s.counters.Lawful
  writeBacks : s.writeBacksCovered

/-! ## What is left unchanged -/

/-- Both pointers, the run state and the fault record are as before. -/
structure SameControl (s t : State) : Prop where
  fp : t.fp = s.fp
  ep : t.ep = s.ep
  runState : t.runState = s.runState
  faultCause : t.faultCause = s.faultCause
  faultInfo : t.faultInfo = s.faultInfo

/-- Every register reads as before. -/
def SameRegisters (s t : State) : Prop := ∀ r, t.readReg r = s.readReg r

/-- Every address reads as before. -/
def SameMemory (s t : State) : Prop := ∀ a, t.wordAt a = s.wordAt a

/-- Every set of the directory is as before. -/
def SameDirectory (s t : State) : Prop := ∀ i, t.cacheSet i = s.cacheSet i

/-- `x[d]` takes `v`, unless `d` is 0; every other register reads as before (10_state.md R12). -/
def RegisterTakes (d : RegIdx) (v : Word) (s t : State) : Prop :=
  ∀ r, t.readReg r = if r = d ∧ d ≠ 0 then v else s.readReg r

/-- The one effect is a register write: `x[d]` takes `v` and nothing else in the machine changes. -/
structure WritesOnlyRegister (d : RegIdx) (v : Word) (s t : State) : Prop where
  registers : RegisterTakes d v s t
  control : SameControl s t
  memory : SameMemory s t
  directory : SameDirectory s t
  counters : t.counters = s.counters

/-- The directory and its five counters end as one `CacheAccess(a, kind)` from `s` leaves them, and one data read
or write is counted with it; no other counter moves (41_load_store.md R120, 10_state.md R24). -/
structure CountsAccess (a : Word) (kind : AccessKind) (s t : State) : Prop where
  directory : SameDirectory (s.cacheAccess a kind) t
  memReads : t.counters.memReads = s.counters.memReads + (if kind = .read then 1 else 0)
  memWrites : t.counters.memWrites = s.counters.memWrites + (if kind = .write then 1 else 0)
  cacheReads : t.counters.cacheReads = s.counters.cacheReads + (if kind = .read then 1 else 0)
  cacheWrites : t.counters.cacheWrites = s.counters.cacheWrites + (if kind = .write then 1 else 0)
  hits : t.counters.hits = (s.cacheAccess a kind).counters.hits
  misses : t.counters.misses = (s.cacheAccess a kind).counters.misses
  writeBacks : t.counters.writeBacks = (s.cacheAccess a kind).counters.writeBacks
  instFetches : t.counters.instFetches = s.counters.instFetches
  branches : t.counters.branches = s.counters.branches
  takenBranches : t.counters.takenBranches = s.counters.takenBranches

/-- At an in-bounds address, instruction `i` loads the word there into `x[d]`, makes one directory `Read` of that
address, and changes nothing else. -/
def LoadsFrom (i : Instr) (d : RegIdx) (a : Word) (s : State) : Prop :=
  a.toNat ≤ 0x000FFFFF → ∃ v t, s.wordAt a = some v ∧ exec i s = .next t ∧
    RegisterTakes d v s t ∧ SameControl s t ∧ SameMemory s t ∧ CountsAccess a .read s t

/-- At an in-bounds address, instruction `i` replaces the word there by `x[d]`, makes one directory `Write` of
that address, and changes nothing else: every address outside that word reads as before. -/
def StoresTo (i : Instr) (d : RegIdx) (a : Word) (s : State) : Prop :=
  a.toNat ≤ 0x000FFFFF → ∃ t, exec i s = .next t ∧
    t.wordAt a = some (s.readReg d) ∧ (∀ b, widx b ≠ widx a → t.wordAt b = s.wordAt b) ∧
    SameRegisters s t ∧ SameControl s t ∧ CountsAccess a .write s t

/-- The one effect is a register write, whatever the state. -/
def Computes (i : Instr) (d : RegIdx) (v : Word) (s : State) : Prop :=
  ∃ t, exec i s = .next t ∧ WritesOnlyRegister d v s t

/-- A fatal condition: `run_state`, `fault_cause` and `fault_info` are written and nothing else changes
(60_exceptions.md R190). -/
structure Faults (cause : FaultCause) (info : Word) (s t : State) : Prop where
  runState : t.runState = .faulted
  faultCause : t.faultCause = cause
  faultInfo : t.faultInfo = info
  fp : t.fp = s.fp
  ep : t.ep = s.ep
  registers : SameRegisters s t
  memory : SameMemory s t
  directory : SameDirectory s t
  counters : t.counters = s.counters

/-- The effects of step 1 of a cycle and nothing else: from `s` to `t` the execute pointer takes the fetch pointer,
the fetch pointer moves to the next word, one fetch is counted (40_execution_cycle.md R91). -/
structure FetchStep (s t : State) : Prop where
  ep : t.ep = s.fp
  fp : t.fp = s.fp + 4
  counters : t.counters = { s.counters with instFetches := s.counters.instFetches + 1 }
  runState : t.runState = s.runState
  faultCause : t.faultCause = s.faultCause
  faultInfo : t.faultInfo = s.faultInfo
  registers : SameRegisters s t
  memory : SameMemory s t
  directory : SameDirectory s t

/-- The two states differ at most in the cache directory and the counters. -/
structure SameArchitecture (s t : State) : Prop where
  regs : t.regs = s.regs
  mem : t.mem = s.mem
  control : SameControl s t

/-- The word with this opcode pattern, the two 5-bit fields at bits 25:21 and 20:16 and these low bits: the form
`pattern | d << 21 | s1 << 16 | low` in which the instruction rules give their words. -/
def wordWith (pattern : Word) (d s1 : BitVec 5) (low : Word) : Word :=
  pattern ||| (d.zeroExtend 32 <<< 21) ||| (s1.zeroExtend 32 <<< 16) ||| low

end Sys2Proof.Machine
end

