-- ==== Sys2Proof/Certificates/Slice0/Obligations.lean ====
section
/-! DEFINITION. The statements for the provers, one definition each. A docstring names the rule of spec/ a statement
formalises; where a clause is a choice of the model or of the spec's decision list it names the log entry. -/

open Sys2Proof Sys2Proof.Machine

/-! ## Decoding and encoding -/

/-- 30_encoding.md R77, R78, R88: for EVERY opcode table that meets the constraints of R77 and either extension of
the immediate, the decoder reads an encoded instruction back. Under `ROT0 = identity` this holds of every
instruction, the two zero displacements included (they are selected and then fatal, R83); under `ROT0 = fault` of
every well-formed one. -/
def Obligations.DecodeInvertsEncodeForEveryTable : Prop :=
  ∀ (p : Params) (i : Instr), p.opc.Admissible →
    (p.rot0 = .identity ∨ i.wellFormedFor p.rot0 = true) →
    decodeWith p (encodeWith p i) = .form i

/-- 30_encoding.md R79 (D5; log 10): a word that selects a form is that form's canonical word but for the ignored
bits, and every word that agrees with it outside the ignored bits selects the same instruction. -/
def Obligations.IgnoredBitsDoNotMatter : Prop :=
  ∀ (w : Word) (i : Instr), decode w = .form i →
    encode i = w &&& ~~~ i.ignoredBits ∧
    ∀ w' : Word, w' &&& ~~~ i.ignoredBits = w &&& ~~~ i.ignoredBits → decode w' = .form i

/-- 30_encoding.md R62, R65, R67 (and, cited in part, R61, R63, R64, R66, R68 to R70): the decoder's nine outputs
are these fixed slices of the word, as numbers. -/
def Obligations.DecoderFieldsAreSlices : Prop :=
  ∀ w : Word,
    (extractFields w).op.toNat = w.toNat / 2 ^ 26 ∧
    (extractFields w).d.toNat = w.toNat / 2 ^ 21 % 2 ^ 5 ∧
    (extractFields w).s1.toNat = w.toNat / 2 ^ 16 % 2 ^ 5 ∧
    (extractFields w).op2.toNat = w.toNat / 2 ^ 10 % 2 ^ 6 ∧
    (extractFields w).scale.toNat = w.toNat / 2 ^ 9 % 2 ∧
    (extractFields w).s2.toNat = w.toNat % 2 ^ 5 ∧
    (extractFields w).imm16.toNat = w.toNat % 2 ^ 16 ∧
    (extractFields w).disp26.toNat = w.toNat % 2 ^ 26 ∧
    (extractFields w).disp16.toNat = w.toNat % 2 ^ 16

/-- 30_encoding.md R78, R81, R82: which words are illegal, all of them and no other. -/
def Obligations.UnknownWordsExactly : Prop :=
  ∀ w : Word, decode w = .unknownInstruction ↔
    (w.toNat / 2 ^ 26 ∉ [0x00, 0x09, 0x0D, 0x17, 0x1C, 0x1D, 0x30, 0x3A, 0x3C, 0x3D] ∨
      (w.toNat / 2 ^ 26 = 0x3C ∧ w.toNat / 2 ^ 10 % 2 ^ 6 ∉ [0x24, 0x26, 0x28, 0x2A]) ∨
      (w.toNat / 2 ^ 26 = 0x3D ∧ w.toNat / 2 ^ 10 % 2 ^ 6 ∉ [0x05, 0x09, 0x0D, 0x1C, 0x1D]))

/-- 30_encoding.md R80 (90_conflicts.md C2; log 2): the alternative profile is an admissible table that differs from
the default in the one number of `ld` immediate. A word with primary opcode `0x17` is `ld` immediate to the default
decoder and unknown to the alternative one; with `0x05` it is the other way round; on every other word the two
decoders agree. -/
def Obligations.ProfilesDifferInLoadImmediateOnly : Prop :=
  opcDoc.Admissible ∧ opcM88k.Admissible ∧
  ∀ w : Word,
    let alt := decodeWith { params with opc := opcM88k } w
    let loadImmediate := Selection.form (.ldImm (extractFields w).d (extractFields w).s1 (extractFields w).imm16)
    if w.toNat / 2 ^ 26 = 0x17 then decode w = loadImmediate ∧ alt = .unknownInstruction
    else if w.toNat / 2 ^ 26 = 0x05 then decode w = .unknownInstruction ∧ alt = loadImmediate
    else alt = decode w

/-- 95_test_vectors.md 2.2: words written out from their encodings, one for each family, decode to the
instruction they stand for. -/
def Obligations.SampleWordsDecode : Prop :=
  decode 0x5C200004 = .form (.ldImm 1 0 4) ∧
  decode 0x03FFFFFF = .form .halt ∧
  decode 0xF4C52606 = .form (.stScaled 6 5 6) ∧
  decode 0xF4617602 = .form (.subReg 3 1 2) ∧
  decode 0xE8A1FFFE = .form (.bcnd 5 1 0xFFFE) ∧
  decode 0xF18B93E4 = .form (.ext 12 11 4) ∧
  decode 0xF0001400 = .unknownInstruction

/-! ## The cycle -/

/-- 40_execution_cycle.md R91 to R93, R102: while the engine is `Running` and the word at `fp` selects an
instruction, the step is that instruction's meaning run on the state after step 1: `ep` takes `fp`, `fp` moves to
the next word, one fetch is counted, and nothing else has changed. -/
def Obligations.StepRunsTheDecodedInstruction : Prop :=
  ∀ (s : State) (iw : Word) (i : Instr), s.runState = .running → s.wordAt s.fp = some iw →
    decode iw = .form i → ∃ s', FetchStep s s' ∧ step s = exec i s'

/-- 60_exceptions.md R191: an unknown word ends the run in `Faulted` with the word recorded, after the fetch step
and with everything else as it was. -/
def Obligations.UnknownWordFaults : Prop :=
  ∀ (s : State) (iw : Word), s.runState = .running → s.wordAt s.fp = some iw →
    decode iw = .unknownInstruction →
    ∃ s' t, FetchStep s s' ∧ step s = .next t ∧ Faults .unknownInstruction iw s' t

/-- 20_memory.md R48, 60_exceptions.md R192, 40_execution_cycle.md R91 (D11; log 12): a fetch from above
`0x000FFFFF` ends the run with the address recorded and changes nothing else: the pointers and the fetch counter
keep their values. -/
def Obligations.FetchOutOfBoundsFaults : Prop :=
  ∀ s : State, s.runState = .running → 0x000FFFFF < s.fp.toNat →
    ∃ t, step s = .next t ∧ Faults .outOfBoundsAccess s.fp s t

/-- 10_state.md R20 (D21): in `Halted` and in `Faulted` no state changes, however many steps are asked for. That a
step there answers the same state again, where the spec takes no step, is the model's choice (log 7). -/
def Obligations.EndedRunIsFrozen : Prop :=
  ∀ (k : Nat) (s : State), s.runState ≠ .running → Sys2Proof.core.run k s = .next s

/-- 40_execution_cycle.md R96, 60_exceptions.md R197 (D15; log 12): a step that ends in `Faulted` from a running
state has changed no register, no memory word, no directory set and no counter but the count of fetches; the
pointers and that count have either made their fetch step or not moved at all. -/
def Obligations.FatalStepKeepsEverythingElse : Prop :=
  ∀ s t : State, s.runState = .running → step s = .next t → t.runState = .faulted →
    SameRegisters s t ∧ SameMemory s t ∧ SameDirectory s t ∧
    ((t.ep = s.fp ∧ t.fp = s.fp + 4 ∧
        t.counters = { s.counters with instFetches := s.counters.instFetches + 1 }) ∨
      (t.ep = s.ep ∧ t.fp = s.fp ∧ t.counters = s.counters))

/-- 60_exceptions.md R194, R195: every way a running step can fault, with the cause and the information it
records: the fetch out of bounds; an unknown word; a zero displacement; a load or store out of bounds. -/
def Obligations.FatalConditionsAreThese : Prop :=
  ∀ s t : State, s.runState = .running → step s = .next t → t.runState = .faulted →
    (0x000FFFFF < s.fp.toNat ∧ t.faultCause = .outOfBoundsAccess ∧ t.faultInfo = s.fp) ∨
    ∃ iw, s.wordAt s.fp = some iw ∧
      ((decode iw = .unknownInstruction ∧ t.faultCause = .unknownInstruction ∧ t.faultInfo = iw) ∨
        (((decode iw = .form (.br 0)) ∨ ∃ mask s1, decode iw = .form (.bcnd mask s1 0)) ∧
          t.faultCause = .invalidBranchEncoding ∧ t.faultInfo = iw) ∨
        (∃ i d s1 b, decode iw = .form i ∧ i.dataAccess = some (d, s1, b) ∧
          0x000FFFFF < (s.effectiveAddress s1 b).toNat ∧
          t.faultCause = .outOfBoundsAccess ∧ t.faultInfo = s.effectiveAddress s1 b))

/-- 40_execution_cycle.md R95: a running step ends in `Halted` exactly when the word at `fp` selects `halt`. -/
def Obligations.OnlyHaltHalts : Prop :=
  ∀ s t : State, s.runState = .running → step s = .next t →
    (t.runState = .halted ↔ ∃ iw, s.wordAt s.fp = some iw ∧ decode iw = .form .halt)

/-- 10_state.md R15 to R17, 43_branch.md R140, R144: after a running step on an instruction `ep` is that
instruction's address; `fp` is the address of the next word, but after `br` and after a `bcnd` whose condition holds
it is the branch's own address plus four times the signed displacement, in the very next cycle. (A branch with a
zero displacement is fatal and leaves `fp` at the next word.) -/
def Obligations.PointersMoveByFetchAndTakenBranchOnly : Prop :=
  ∀ (s t : State) (iw : Word) (i : Instr), s.runState = .running → s.wordAt s.fp = some iw →
    decode iw = .form i → step s = .next t →
    t.ep = s.fp ∧
    t.fp = match i with
      | .br disp => if disp = 0 then s.fp + 4 else BitVec.ofInt 32 (s.fp.toNat + 4 * disp.toInt)
      | .bcnd mask s1 disp =>
        if disp = 0 ∨ conditionHolds mask (s.readReg s1) = false then s.fp + 4
        else BitVec.ofInt 32 (s.fp.toNat + 4 * disp.toInt)
      | _ => s.fp + 4

/-- 10_state.md R28, 20_memory.md R43, R47: a step changes the word at an address only if it runs a store whose
effective address selects that word, and then the word is the stored register. -/
def Obligations.OnlyStoresChangeMemory : Prop :=
  ∀ (s t : State) (a : Word), step s = .next t → t.wordAt a ≠ s.wordAt a →
    ∃ iw i d s1 b, s.wordAt s.fp = some iw ∧ decode iw = .form i ∧ i.isStore = true ∧
      i.dataAccess = some (d, s1, b) ∧ widx (s.effectiveAddress s1 b) = widx a ∧
      t.wordAt a = some (s.readReg d)

/-- 10_state.md R23, R24, R25: a running step on an instruction counts one fetch; one data read exactly when it is a
load that does not fault, one data write exactly when it is a store that does not fault, one branch exactly when it
is a branch that does not fault; the fetch itself is no data read. That a branch that faults is not counted is the
spec's decision D15, the model's choice (log 12). -/
def Obligations.StepCountsItsEvents : Prop :=
  ∀ (s t : State) (iw : Word) (i : Instr), s.runState = .running → s.wordAt s.fp = some iw →
    decode iw = .form i → step s = .next t →
    t.counters.instFetches = s.counters.instFetches + 1 ∧
    t.counters.memReads =
      s.counters.memReads + (if i.isLoad = true ∧ t.runState ≠ .faulted then 1 else 0) ∧
    t.counters.memWrites =
      s.counters.memWrites + (if i.isStore = true ∧ t.runState ≠ .faulted then 1 else 0) ∧
    t.counters.branches =
      s.counters.branches + (if i.isBranch = true ∧ t.runState ≠ .faulted then 1 else 0)

/-- 10_state.md R22 to R26, 70_reset_and_hazards.md R223: the machine has a next step, and that step lowers no counter
and raises none by more than 1. R223 gives a next step while `Running`; in `Halted` and `Faulted` the spec takes none
(R20, decision D21), and that `step` answers a state there at all is the model's choice (log 7). -/
def Obligations.NextStepExistsAndCountersOnlyGrow : Prop :=
  ∀ s : State, ∃ t, step s = .next t ∧
    List.Forall₂ (fun before after => before ≤ after ∧ after ≤ before + 1) s.report t.report

/-- 20_memory.md R52, 70_reset_and_hazards.md R219: a store, in any of the three forms of `st`, into the word that is
fetched next is what the next cycle fetches, with nothing in between: if it stores the word of an instruction, the
next step runs that instruction. -/
def Obligations.StoreIntoNextWordIsFetched : Prop :=
  ∀ (s : State) (iw : Word) (i j : Instr) (d s1 : RegIdx) (b : OperandB), s.runState = .running →
    s.wordAt s.fp = some iw → decode iw = .form i → i.isStore = true → i.dataAccess = some (d, s1, b) →
    (s.fp + 4).toNat ≤ 0x000FFFFF → widx (s.effectiveAddress s1 b) = widx (s.fp + 4) →
    decode (s.readReg d) = .form j →
    ∃ t t', step s = .next t ∧ t.wordAt t.fp = some (s.readReg d) ∧ FetchStep t t' ∧ step t = exec j t'

/-- 20_memory.md R54: the directory and the counters never affect a register, a memory word or the flow of control.
Two states that differ in nothing else step to states that differ in nothing else. -/
def Obligations.DirectoryNeverAffectsExecution : Prop :=
  ∀ s s' t t' : State, SameArchitecture s s' → step s = .next t → step s' = .next t' → SameArchitecture t t'

/-! ## Invariants kept by every step -/

/-- The memory keeps its canonical form (the model's own form, log 5). -/
def Obligations.StepKeepsMemoryCanonical : Prop :=
  ∀ s t : State, s.memoryCanonical → step s = .next t → t.memoryCanonical

/-- 10_state.md R18, R12: both pointers stay multiples of 4, and slot 0 of the register file stays zero. -/
def Obligations.StepKeepsPointersAlignedAndZeroSlot : Prop :=
  ∀ s t : State, s.pointersAligned → s.zeroSlotIsZero → step s = .next t → t.pointersAligned ∧ t.zeroSlotIsZero

/-- 10_state.md R21 (D17): the fault record stays `None` exactly while the run is not `Faulted`. -/
def Obligations.StepKeepsRecordConsistent : Prop :=
  ∀ s t : State, s.recordConsistent → step s = .next t → t.recordConsistent

/-- 45_cache_directory.md R175 items 1 to 4, 10_state.md R35, R161, R177: the laws of the directory are kept, and no
step invalidates a line. -/
def Obligations.StepKeepsDirectoryLawful : Prop :=
  ∀ s t : State, s.directoryLawful → step s = .next t →
    t.directoryLawful ∧
    ∀ i w, ((s.cacheSet i).way w).valid = true → ((t.cacheSet i).way w).valid = true

/-- 10_state.md R27: the counter invariants. -/
def Obligations.StepKeepsCountersLawful : Prop :=
  ∀ s t : State, s.counters.Lawful → step s = .next t → t.counters.Lawful

/-- 45_cache_directory.md R175 item 6: write-backs and lines still dirty together never outnumber the `Write`
accesses. -/
def Obligations.StepKeepsWriteBacksCovered : Prop :=
  ∀ s t : State, s.writeBacksCovered → step s = .next t → t.writeBacksCovered

/-- 10_state.md R36 (70_reset_and_hazards.md R211, R212): what reset leaves. That `fault_info` is 0 is the spec's
decision D17 (log 8); that a word of memory outside the program is `MEM0`'s, whatever that is, its decision D12
(log 5). -/
def Obligations.ResetLeavesTheStatedValues : Prop :=
  (∀ r, State.reset.readReg r = 0) ∧ State.reset.fp = 0 ∧ State.reset.ep = 0 ∧
  State.reset.runState = .running ∧ State.reset.faultCause = .none ∧ State.reset.faultInfo = 0 ∧
  (∀ n ∈ State.reset.report, n = 0) ∧
  (∀ i w, ((State.reset.cacheSet i).way w).valid = false ∧ ((State.reset.cacheSet i).way w).dirty = false ∧
    ((State.reset.cacheSet i).way w).tag = 0) ∧
  (∀ i, (State.reset.cacheSet i).lastUsedWay = .way0) ∧
  ∀ a : Word, a.toNat ≤ 0x000FFFFF → State.reset.wordAt a = some (Config.mem0 (a.toNat / 4))

/-- The model's own choice of invariants (each rule named at its definition) holds right after reset. -/
def Obligations.ResetMeetsTheInvariants : Prop :=
  State.reset.Inv

/-- 70_reset_and_hazards.md R210, R213 to R215. Reset, from any state whatever (decision D20; log 23), leaves memory
as it was and gives every other piece of state its reset value. From any state with canonical memory a program of at
most 256 words is launched: word `j` of it is at byte address `4 j`, every other word of memory is as before the
reset, every other piece of state has its reset value, and all the invariants hold; a longer program is not launched
(decision D25; log 19). -/
def Obligations.LaunchPlacesTheProgram : Prop :=
  ∀ (s : State) (program : List Word),
    let atReset := fun t : State => t.fp = 0 ∧ t.ep = 0 ∧ t.runState = .running ∧ t.faultCause = .none ∧
      t.faultInfo = 0 ∧ (∀ r, t.readReg r = 0) ∧ t.report = List.replicate 10 0 ∧ SameDirectory State.reset t
    (atReset s.applyReset ∧ SameMemory s s.applyReset) ∧
    (s.memoryCanonical → program.length ≤ 256 → ∃ t, s.launch program = .next t ∧ t.Inv ∧ atReset t ∧
      ∀ a : Word, a.toNat ≤ 0x000FFFFF →
        t.wordAt a = if h : widx a < program.length then some program[widx a] else s.wordAt a) ∧
    (256 < program.length → s.launch program = .refused .loadOverflow)

/-! ## The cache directory -/

/-- 45_cache_directory.md R167, R168: a way matches when it is valid and holds the tag of the address; way 0 is
probed first. If way 0 matches, or way 1 matches and way 0 does not, the access is a hit in that way: it becomes
`last_used_way`, one hit and no miss is counted, and no valid bit or tag changes. Of any directory, lawful or not. -/
def Obligations.DirectoryHitKeepsTheLine : Prop :=
  ∀ (s : State) (a : Word) (k : AccessKind) (w : WayIdx),
    let c := s.cacheSet (setIndex a)
    let c' := (s.cacheAccess a k).cacheSet (setIndex a)
    let holdsLine := fun w => (c.way w).valid = true ∧ (c.way w).tag = lineTag a
    holdsLine w → (w = .way1 → ¬ holdsLine .way0) →
    s.accessResult a k = .hit ∧ c'.lastUsedWay = w ∧
    (∀ w', (c'.way w').valid = (c.way w').valid ∧ (c'.way w').tag = (c.way w').tag) ∧
    (s.cacheAccess a k).counters.hits = s.counters.hits + 1 ∧
    (s.cacheAccess a k).counters.misses = s.counters.misses ∧
    (s.cacheAccess a k).counters.writeBacks = s.counters.writeBacks

/-- 45_cache_directory.md R169 to R171: on a miss one miss is counted; the victim is an invalid way, way 0 before
way 1, else the way that is not `last_used_way`; a victim both valid and dirty is a write-back, counted and
answered; the victim takes the line and becomes `last_used_way`, and the other way is left alone. -/
def Obligations.DirectoryMissReplacesTheVictim : Prop :=
  ∀ (s : State) (a : Word) (k : AccessKind),
    (∀ w, ((s.cacheSet (setIndex a)).way w).valid = true →
      ((s.cacheSet (setIndex a)).way w).tag ≠ lineTag a) →
    let c := s.cacheSet (setIndex a)
    let c' := (s.cacheAccess a k).cacheSet (setIndex a)
    let evictsDirty := fun w => (c.way w).valid = true ∧ (c.way w).dirty = true
    (s.cacheAccess a k).counters.misses = s.counters.misses + 1 ∧
    (s.cacheAccess a k).counters.hits = s.counters.hits ∧
    ∃ w : WayIdx,
      (c.way0.valid = false → w = .way0) ∧
      (c.way0.valid = true → c.way1.valid = false → w = .way1) ∧
      (c.way0.valid = true → c.way1.valid = true → w ≠ c.lastUsedWay) ∧
      (evictsDirty w → s.accessResult a k = .missWithWriteBack ∧
        (s.cacheAccess a k).counters.writeBacks = s.counters.writeBacks + 1) ∧
      (¬ evictsDirty w → s.accessResult a k = .miss ∧
        (s.cacheAccess a k).counters.writeBacks = s.counters.writeBacks) ∧
      c'.lastUsedWay = w ∧ (c'.way w).valid = true ∧ (c'.way w).tag = lineTag a ∧
      c'.way w.other = c.way w.other

/-- 45_cache_directory.md R172: after a `Write` the way the access ended in is dirty, on a hit and on a miss; a
`Read` never sets a dirty bit; nothing but an install clears one. In full: after a `Write` the other way's bit is as
before; a `Read` that hits leaves both bits; a `Read` that misses clears the bit of the way it installs in and no
other. -/
def Obligations.DirectoryWriteDirtiesAndReadDoesNot : Prop :=
  ∀ (s : State) (a : Word),
    let c := s.cacheSet (setIndex a)
    let w := (s.cacheAccess a .write).cacheSet (setIndex a)
    let r := (s.cacheAccess a .read).cacheSet (setIndex a)
    (w.way w.lastUsedWay).dirty = true ∧
    (w.way w.lastUsedWay.other).dirty = (c.way w.lastUsedWay.other).dirty ∧
    (s.accessResult a .read = .hit → ∀ v, (r.way v).dirty = (c.way v).dirty) ∧
    (s.accessResult a .read ≠ .hit → (r.way r.lastUsedWay).dirty = false ∧
      (r.way r.lastUsedWay.other).dirty = (c.way r.lastUsedWay.other).dirty)

/-- 45_cache_directory.md R165, R166, R174: an access touches the one set its address selects, counts exactly one
of reads and writes and exactly one of hits and misses, and changes no register, no memory word, no pointer, no
other counter. -/
def Obligations.DirectoryAccessTouchesOneSet : Prop :=
  ∀ (s : State) (a : Word) (k : AccessKind),
    let t := s.cacheAccess a k
    (∀ i, i.toNat ≠ a.toNat / 8 % 64 → t.cacheSet i = s.cacheSet i) ∧
    t.counters.cacheReads = s.counters.cacheReads + (if k = .read then 1 else 0) ∧
    t.counters.cacheWrites = s.counters.cacheWrites + (if k = .write then 1 else 0) ∧
    ((t.counters.hits = s.counters.hits + 1 ∧ t.counters.misses = s.counters.misses) ∨
      (t.counters.hits = s.counters.hits ∧ t.counters.misses = s.counters.misses + 1)) ∧
    t.counters.instFetches = s.counters.instFetches ∧ t.counters.memReads = s.counters.memReads ∧
    t.counters.memWrites = s.counters.memWrites ∧ t.counters.branches = s.counters.branches ∧
    t.counters.takenBranches = s.counters.takenBranches ∧
    SameRegisters s t ∧ SameMemory s t ∧ SameControl s t

/-- 45_cache_directory.md R161, R175 item 5: the line of an access is resident after it, so a second access
anywhere in the same 8-byte line, aligned or not, hits. -/
def Obligations.SameLineHitsAfterAnAccess : Prop :=
  ∀ (s : State) (a b : Word) (k k' : AccessKind), a.toNat / 8 = b.toNat / 8 →
    (s.cacheAccess a k).accessResult b k' = .hit

/-- 45_cache_directory.md R176: true LRU. After accesses A, B, A to different lines of one set the second A is a
hit, and a following access to a third line C of the set evicts B and keeps A: the next A hits, the next B misses.
From any directory that obeys its laws. From reset in detail: A misses into way 0, B misses into way 1, A hits way 0,
C evicts way 1. -/
def Obligations.LeastRecentlyUsedIsEvicted : Prop :=
  ∀ (s : State) (a b c : Word) (ka kb ka' kc k : AccessKind), s.directoryLawful →
    setIndex b = setIndex a → setIndex c = setIndex a →
    lineTag a ≠ lineTag b → lineTag a ≠ lineTag c → lineTag b ≠ lineTag c →
    let s1 := s.cacheAccess a ka
    let s2 := s1.cacheAccess b kb
    let s3 := s2.cacheAccess a ka'
    let s4 := s3.cacheAccess c kc
    let used := fun t : State => (t.cacheSet (setIndex a)).lastUsedWay
    (s2.accessResult a ka' = .hit ∧ s4.accessResult a k = .hit ∧ s4.accessResult b k ≠ .hit) ∧
    (s = State.reset →
      s.accessResult a ka = .miss ∧ used s1 = .way0 ∧ s1.accessResult b kb = .miss ∧ used s2 = .way1 ∧
      used s3 = .way0 ∧ s3.accessResult c kc ≠ .hit ∧ used s4 = .way1)

/-! ## The instructions -/

/-- 40_execution_cycle.md R105: `halt`. -/
def Obligations.HaltRule : Prop :=
  encode .halt = 0x00000000 ∧
  ∀ s : State, ∃ t, exec .halt s = .next t ∧ t.runState = .halted ∧ t.fp = s.fp ∧ t.ep = s.ep ∧
    t.faultCause = s.faultCause ∧ t.faultInfo = s.faultInfo ∧ t.counters = s.counters ∧
    SameRegisters s t ∧ SameMemory s t ∧ SameDirectory s t

/-- 41_load_store.md R111, R110, R120: `ld` immediate. Its opcode number (log 2), the zero extension (D4, log 3)
and the wrapping sum (D7, log 14) are decisions of the spec. -/
def Obligations.LoadImmediateRule : Prop :=
  ∀ (d s1 : RegIdx) (imm : Imm16) (s : State),
    encode (.ldImm d s1 imm) = wordWith 0x5C000000 d s1 (imm.zeroExtend 32) ∧
    (s.effectiveAddress s1 (.imm imm)).toNat = ((s.readReg s1).toNat + imm.toNat) % 2 ^ 32 ∧
    LoadsFrom (.ldImm d s1 imm) d (s.effectiveAddress s1 (.imm imm)) s

/-- 41_load_store.md R112, R110, R120: `ld` register. The opcode numbers (log 1) and the wrapping sum (D7, log 14)
are decisions of the spec. -/
def Obligations.LoadRegisterRule : Prop :=
  ∀ (d s1 s2 : RegIdx) (s : State),
    encode (.ldReg d s1 s2) = wordWith 0xF4001400 d s1 (s2.zeroExtend 32) ∧
    (s.effectiveAddress s1 (.reg s2)).toNat = ((s.readReg s1).toNat + (s.readReg s2).toNat) % 2 ^ 32 ∧
    LoadsFrom (.ldReg d s1 s2) d (s.effectiveAddress s1 (.reg s2)) s

/-- 41_load_store.md R113, R110, R120: `ld` scaled. The opcode numbers (log 1), the polarity of the scale bit (D6,
log 22) and the wrapping sum (D7, log 14) are decisions of the spec. -/
def Obligations.LoadScaledRule : Prop :=
  ∀ (d s1 s2 : RegIdx) (s : State),
    encode (.ldScaled d s1 s2) = wordWith 0xF4001600 d s1 (s2.zeroExtend 32) ∧
    (s.effectiveAddress s1 (.scaled s2)).toNat = ((s.readReg s1).toNat + 4 * (s.readReg s2).toNat) % 2 ^ 32 ∧
    LoadsFrom (.ldScaled d s1 s2) d (s.effectiveAddress s1 (.scaled s2)) s

/-- 41_load_store.md R114, R110, R120: `st` immediate. Its opcode number (log 1), the zero extension (D4, log 3)
and the wrapping sum (D7, log 14) are decisions of the spec. -/
def Obligations.StoreImmediateRule : Prop :=
  ∀ (d s1 : RegIdx) (imm : Imm16) (s : State),
    encode (.stImm d s1 imm) = wordWith 0x24000000 d s1 (imm.zeroExtend 32) ∧
    (s.effectiveAddress s1 (.imm imm)).toNat = ((s.readReg s1).toNat + imm.toNat) % 2 ^ 32 ∧
    StoresTo (.stImm d s1 imm) d (s.effectiveAddress s1 (.imm imm)) s

/-- 41_load_store.md R115, R110, R120: `st` register. The opcode numbers (log 1) and the wrapping sum (D7, log 14)
are decisions of the spec. -/
def Obligations.StoreRegisterRule : Prop :=
  ∀ (d s1 s2 : RegIdx) (s : State),
    encode (.stReg d s1 s2) = wordWith 0xF4002400 d s1 (s2.zeroExtend 32) ∧
    (s.effectiveAddress s1 (.reg s2)).toNat = ((s.readReg s1).toNat + (s.readReg s2).toNat) % 2 ^ 32 ∧
    StoresTo (.stReg d s1 s2) d (s.effectiveAddress s1 (.reg s2)) s

/-- 41_load_store.md R116, R110, R120: `st` scaled. The opcode numbers (log 1), the polarity of the scale bit (D6,
log 22) and the wrapping sum (D7, log 14) are decisions of the spec. -/
def Obligations.StoreScaledRule : Prop :=
  ∀ (d s1 s2 : RegIdx) (s : State),
    encode (.stScaled d s1 s2) = wordWith 0xF4002600 d s1 (s2.zeroExtend 32) ∧
    (s.effectiveAddress s1 (.scaled s2)).toNat = ((s.readReg s1).toNat + 4 * (s.readReg s2).toNat) % 2 ^ 32 ∧
    StoresTo (.stScaled d s1 s2) d (s.effectiveAddress s1 (.scaled s2)) s

/-- 41_load_store.md R117, R110: `lda` immediate, no address check. Its opcode number (log 1), the zero extension
(D4, log 3) and the wrapping sum (D7, log 14) are decisions of the spec. -/
def Obligations.LoadAddressImmediateRule : Prop :=
  ∀ (d s1 : RegIdx) (imm : Imm16) (s : State),
    encode (.ldaImm d s1 imm) = wordWith 0x34000000 d s1 (imm.zeroExtend 32) ∧
    Computes (.ldaImm d s1 imm) d (BitVec.ofNat 32 ((s.readReg s1).toNat + imm.toNat)) s

/-- 41_load_store.md R118, R110: `lda` register. The opcode numbers (log 1) and the wrapping sum (D7, log 14) are
decisions of the spec. -/
def Obligations.LoadAddressRegisterRule : Prop :=
  ∀ (d s1 s2 : RegIdx) (s : State),
    encode (.ldaReg d s1 s2) = wordWith 0xF4003400 d s1 (s2.zeroExtend 32) ∧
    Computes (.ldaReg d s1 s2) d (BitVec.ofNat 32 ((s.readReg s1).toNat + (s.readReg s2).toNat)) s

/-- 41_load_store.md R119, R110: `lda` scaled. The opcode numbers (log 1), the polarity of the scale bit (D6,
log 22) and the wrapping sum (D7, log 14) are decisions of the spec. -/
def Obligations.LoadAddressScaledRule : Prop :=
  ∀ (d s1 s2 : RegIdx) (s : State),
    encode (.ldaScaled d s1 s2) = wordWith 0xF4003600 d s1 (s2.zeroExtend 32) ∧
    Computes (.ldaScaled d s1 s2) d (BitVec.ofNat 32 ((s.readReg s1).toNat + 4 * (s.readReg s2).toNat)) s

/-- 42_arith.md R131, R130: `add` immediate. Its opcode number (log 1), the zero extension (D4, log 3) and the
wrapping sum (D7, log 14) are decisions of the spec. -/
def Obligations.AddImmediateRule : Prop :=
  ∀ (d s1 : RegIdx) (imm : Imm16) (s : State),
    encode (.addImm d s1 imm) = wordWith 0x70000000 d s1 (imm.zeroExtend 32) ∧
    Computes (.addImm d s1 imm) d (BitVec.ofNat 32 ((s.readReg s1).toNat + imm.toNat)) s

/-- 42_arith.md R132, R130: `add` register. The opcode numbers (log 1) and the wrapping sum (D7, log 14) are
decisions of the spec. -/
def Obligations.AddRegisterRule : Prop :=
  ∀ (d s1 s2 : RegIdx) (s : State),
    encode (.addReg d s1 s2) = wordWith 0xF4007000 d s1 (s2.zeroExtend 32) ∧
    Computes (.addReg d s1 s2) d (BitVec.ofNat 32 ((s.readReg s1).toNat + (s.readReg s2).toNat)) s

/-- 42_arith.md R133, R130: `sub` immediate. Its opcode number (log 1), the zero extension (D4, log 3) and the
wrapping difference (D7, log 14) are decisions of the spec. -/
def Obligations.SubImmediateRule : Prop :=
  ∀ (d s1 : RegIdx) (imm : Imm16) (s : State),
    encode (.subImm d s1 imm) = wordWith 0x74000000 d s1 (imm.zeroExtend 32) ∧
    Computes (.subImm d s1 imm) d (BitVec.ofInt 32 ((s.readReg s1).toNat - (imm.toNat : Int))) s

/-- 42_arith.md R134, R130: `sub` register, `x[s1]` minus `x[s2]`. The opcode numbers (log 1) and the wrapping
difference (D7, log 14) are decisions of the spec. -/
def Obligations.SubRegisterRule : Prop :=
  ∀ (d s1 s2 : RegIdx) (s : State),
    encode (.subReg d s1 s2) = wordWith 0xF4007400 d s1 (s2.zeroExtend 32) ∧
    Computes (.subReg d s1 s2) d
      (BitVec.ofInt 32 ((s.readReg s1).toNat - ((s.readReg s2).toNat : Int))) s

/-- 43_branch.md R141, R140: `br` with a non-zero displacement is taken, counted twice, and changes nothing else;
with a zero displacement it raises `InvalidBranchEncoding` and counts nothing. The opcode number (log 1), the
wrapping sum (D10, log 14) and the counters of the fatal case (D15, log 12) are decisions of the spec. -/
def Obligations.BranchRule : Prop :=
  ∀ (disp : Disp26) (s : State),
    encode (.br disp) = 0xC0000000 ||| disp.zeroExtend 32 ∧
    (disp ≠ 0 → ∃ t, exec (.br disp) s = .next t ∧
      t.fp = BitVec.ofInt 32 (s.ep.toNat + 4 * disp.toInt) ∧
      t.counters = { s.counters with
        branches := s.counters.branches + 1
        takenBranches := s.counters.takenBranches + 1 } ∧
      t.ep = s.ep ∧ t.runState = s.runState ∧ t.faultCause = s.faultCause ∧ t.faultInfo = s.faultInfo ∧
      SameRegisters s t ∧ SameMemory s t ∧ SameDirectory s t) ∧
    (disp = 0 → ∃ t, exec (.br disp) s = .next t ∧ Faults .invalidBranchEncoding 0xC0000000 s t)

/-- 43_branch.md R143, R142, R140: `bcnd` with a non-zero displacement: taken exactly when the mask bit that the
sign and zero-ness of `x[s1]` select is 1 (bit 0 positive, bit 1 zero, bit 2 negative). With a zero displacement it
is fatal whatever the condition. The opcode number (log 1), the wrapping sum (D10, log 14) and the fatal case (D15,
D16, log 12) are decisions of the spec. -/
def Obligations.ConditionalBranchRule : Prop :=
  ∀ (mask : CondMask) (s1 : RegIdx) (disp : Disp16) (s : State),
    let v := (s.readReg s1).toInt
    let taken := mask.getLsbD (if 0 < v then 0 else if v = 0 then 1 else 2)
    encode (.bcnd mask s1 disp) = wordWith 0xE8000000 mask s1 (disp.zeroExtend 32) ∧
    (disp ≠ 0 → ∃ t, exec (.bcnd mask s1 disp) s = .next t ∧
      t.fp = (if taken then BitVec.ofInt 32 (s.ep.toNat + 4 * disp.toInt) else s.fp) ∧
      t.counters = { s.counters with
        branches := s.counters.branches + 1
        takenBranches := s.counters.takenBranches + taken.toNat } ∧
      t.ep = s.ep ∧ t.runState = s.runState ∧ t.faultCause = s.faultCause ∧ t.faultInfo = s.faultInfo ∧
      SameRegisters s t ∧ SameMemory s t ∧ SameDirectory s t) ∧
    (disp = 0 → ∃ t, exec (.bcnd mask s1 disp) s = .next t ∧
      Faults .invalidBranchEncoding (wordWith 0xE8000000 mask s1 0) s t)

/-- 44_bitfield.md R151: `ext`, the floor of the signed value over `2^n`. The opcode numbers are a decision of the
spec (D3, log 1). -/
def Obligations.ExtRule : Prop :=
  ∀ (d s1 : RegIdx) (n : ShiftCount) (s : State),
    encode (.ext d s1 n) = wordWith 0xF0009000 d s1 (n.zeroExtend 32) ∧
    Computes (.ext d s1 n) d (BitVec.ofInt 32 ((s.readReg s1).toInt / 2 ^ n.toNat)) s

/-- 44_bitfield.md R152: `extu`, the unsigned value over `2^n`. The opcode numbers are a decision of the spec (D3,
log 1). -/
def Obligations.ExtuRule : Prop :=
  ∀ (d s1 : RegIdx) (n : ShiftCount) (s : State),
    encode (.extu d s1 n) = wordWith 0xF0009800 d s1 (n.zeroExtend 32) ∧
    Computes (.extu d s1 n) d (BitVec.ofNat 32 ((s.readReg s1).toNat / 2 ^ n.toNat)) s

/-- 44_bitfield.md R153: `mak`, the value times `2^n` modulo `2^32`. The opcode numbers are a decision of the spec
(D3, log 1). -/
def Obligations.MakRule : Prop :=
  ∀ (d s1 : RegIdx) (n : ShiftCount) (s : State),
    encode (.mak d s1 n) = wordWith 0xF000A000 d s1 (n.zeroExtend 32) ∧
    Computes (.mak d s1 n) d (BitVec.ofNat 32 ((s.readReg s1).toNat * 2 ^ n.toNat)) s

/-- 44_bitfield.md R154 (and 90_conflicts.md C6): `rot` puts bit `i` of the source into bit `(i - n) mod 32` of the
result and writes nothing else. That `n = 0` copies is the spec's decision D8, the model's `ROT0` (log 4); the opcode
numbers are its decision D3 (log 1). -/
def Obligations.RotRule : Prop :=
  ∀ (d s1 : RegIdx) (n : ShiftCount) (s : State),
    encode (.rot d s1 n) = wordWith 0xF000A800 d s1 (n.zeroExtend 32) ∧
    ∃ v : Word, Computes (.rot d s1 n) d v s ∧
      ∀ i < 32, v.getLsbD ((i + 32 - n.toNat) % 32) = (s.readReg s1).getLsbD i

/-! ## Where an instruction traps -/

/-- 41_load_store.md R121, 60_exceptions.md R192: every form of `ld` and `st` whose effective address is above
`0x000FFFFF` raises `OutOfBoundsAccess` of that address and does nothing else: the destination register, memory, the
directory and every counter keep their values. -/
def Obligations.LoadAndStoreOutOfBounds : Prop :=
  ∀ (s : State) (d s1 s2 : RegIdx) (imm : Imm16) (b : OperandB) (i : Instr),
    ((b = .imm imm ∧ (i = .ldImm d s1 imm ∨ i = .stImm d s1 imm)) ∨
      (b = .reg s2 ∧ (i = .ldReg d s1 s2 ∨ i = .stReg d s1 s2)) ∨
      (b = .scaled s2 ∧ (i = .ldScaled d s1 s2 ∨ i = .stScaled d s1 s2))) →
    0x000FFFFF < (s.effectiveAddress s1 b).toNat →
    ∃ t, exec i s = .next t ∧ Faults .outOfBoundsAccess (s.effectiveAddress s1 b) s t

/-- 43_branch.md R145, 60_exceptions.md R193: a running step on a branch word with a zero displacement, whatever
its condition, ends in `Faulted` with the word itself recorded, after the fetch step and nothing else. -/
def Obligations.ZeroDisplacementIsFatal : Prop :=
  ∀ (s : State) (iw : Word), s.runState = .running → s.wordAt s.fp = some iw →
    ((iw.toNat / 2 ^ 26 = 0x30 ∧ iw.toNat % 2 ^ 26 = 0) ∨ (iw.toNat / 2 ^ 26 = 0x3A ∧ iw.toNat % 2 ^ 16 = 0)) →
    ∃ s' t, FetchStep s s' ∧ step s = .next t ∧ Faults .invalidBranchEncoding iw s' t

/-! ## Laws across instructions and operations -/

/-- 20_memory.md R44, R41: the low two address bits never matter to memory: two addresses that agree above them read
the same word and are in bounds together, and a word set through one is read through the other. -/
def Obligations.MisalignedAccessUsesTheAlignedWord : Prop :=
  ∀ (s : State) (a b v : Word), a.toNat / 4 = b.toNat / 4 →
    s.wordAt a = s.wordAt b ∧ (s.wordAt a = none ↔ 0x000FFFFF < a.toNat) ∧
    (a.toNat ≤ 0x000FFFFF → (s.setWord a v).wordAt b = some v)

/-- 30_encoding.md R86, 43_branch.md R142: what each named condition means, and that mask bits 3 and 4 never
matter. -/
def Obligations.NamedConditionsMeanWhatTheySay : Prop :=
  ∀ v : Word,
    (conditionHolds CondName.never.mask v = false) ∧
    (conditionHolds CondName.gt0.mask v = decide (0 < v.toInt)) ∧
    (conditionHolds CondName.eq0.mask v = decide (v.toInt = 0)) ∧
    (conditionHolds CondName.ge0.mask v = decide (0 ≤ v.toInt)) ∧
    (conditionHolds CondName.lt0.mask v = decide (v.toInt < 0)) ∧
    (conditionHolds CondName.ne0.mask v = decide (v.toInt ≠ 0)) ∧
    (conditionHolds CondName.le0.mask v = decide (v.toInt ≤ 0)) ∧
    (conditionHolds CondName.always.mask v = true) ∧
    ∀ m m' : CondMask, m.toNat % 8 = m'.toNat % 8 → conditionHolds m v = conditionHolds m' v

/-- 42_arith.md R133, 95_test_vectors.md S4: `add rD,rS,k` and then `sub rD,rD,k` leave in `rD` what `rS` held, for
every value, carried through a wrap or not; with `rD` = `r0` nothing is ever left there. -/
def Obligations.AddThenSubRestores : Prop :=
  ∀ (d s1 : RegIdx) (k : Imm16) (s : State), ∃ t u,
    exec (.addImm d s1 k) s = .next t ∧ exec (.subImm d d k) t = .next u ∧
    u.readReg d = if d = 0 then 0 else s.readReg s1

/-- 44_bitfield.md R155, 95_test_vectors.md S5: `rot` by `n` and then by `32 - n` gives the value back, for every
count from 1 to 31, and (decision D8, log 4) for `n = 0` with a second rotation by 0. -/
def Obligations.RotateThereAndBack : Prop :=
  ∀ (d s1 : RegIdx) (n m : ShiftCount) (s : State), (n.toNat + m.toNat) % 32 = 0 → d ≠ 0 → ∃ t u,
    exec (.rot d s1 n) s = .next t ∧ exec (.rot d d m) t = .next u ∧ u.readReg d = s.readReg s1
end

