-- ==== Sys2Proof/Laws/Config.lean ====
section
/-! SUPPORT. The configuration record names the sizes the model is built with (00_scope.md R4): each type and each
array of the model has the size its field gives. -/

namespace Sys2Proof.Machine

/-- The sizes of R4 are those of the model's types. -/
theorem configuration_fits :
    Word = BitVec configuration.xlen ∧ Word = BitVec configuration.ilen ∧ Word = BitVec configuration.ptrWidth ∧
      Vector Word 32 = Vector Word configuration.nreg ∧ configuration.nreg = 2 ^ 5 ∧
      Vector CacheSet 64 = Vector CacheSet configuration.nsets ∧ configuration.nsets = 2 ^ 6 ∧
      Tag = BitVec configuration.tagWidth ∧
      memWords = configuration.memWords ∧ loadMaxWords = configuration.loadMaxWords :=
  ⟨rfl, rfl, rfl, rfl, rfl, rfl, rfl, rfl, rfl, rfl⟩

/-- The ways of a set, `NWAYS` of them and no other. -/
theorem configuration_ways :
    [WayIdx.way0, WayIdx.way1].length = configuration.nways ∧ ∀ w : WayIdx, w ∈ [WayIdx.way0, WayIdx.way1] :=
  ⟨rfl, fun w => by cases w <;> decide⟩

/-- The mask keeps exactly a set number; the tag starts where the set number ends; tag and set number together leave
the line offset. -/
theorem configuration_address_split :
    configuration.indexMask + 1 = configuration.nsets ∧ configuration.tagShift = configuration.indexShift + 6 ∧
      configuration.tagShift + configuration.tagWidth = configuration.xlen := by decide

theorem params_opc : params.opc = opcDoc := rfl
theorem params_imm16Ext : params.imm16Ext = .zero := rfl
theorem params_rot0 : params.rot0 = .identity := rfl

/-- Memory outside the program is the record's `MEM0`, the free value. -/
theorem configuration_mem0 (i : Nat) : configuration.mem0 i = Config.mem0 i := rfl

end Sys2Proof.Machine
end

