-- ==== Sys2Proof/Laws/Decode.lean ====
section
/-! SUPPORT. The decoder's fields of a word put together by a format of the encoder, the formats as bit patterns,
and `select` under an admissible opcode table. -/

namespace Sys2Proof

section formats
variable (op op2 : Opcode) (scale : BitVec 1) (d s1 s2 : BitVec 5) (low : BitVec 16) (disp : Disp26)

@[simp] theorem formatI_op : (extractFields (formatI op d s1 low)).op = op := by
  simp (disch := decide) only [extractFields, formatI, BitVec.extractLsb'_append_eq_of_le]
  exact BitVec.extractLsb'_eq_self

@[simp] theorem formatI_d : (extractFields (formatI op d s1 low)).d = d := by
  simp (disch := decide) only [extractFields, formatI, BitVec.extractLsb'_append_eq_of_le,
    BitVec.extractLsb'_append_eq_of_add_le]
  exact BitVec.extractLsb'_eq_self

@[simp] theorem formatI_s1 : (extractFields (formatI op d s1 low)).s1 = s1 := by
  simp (disch := decide) only [extractFields, formatI, BitVec.extractLsb'_append_eq_of_le,
    BitVec.extractLsb'_append_eq_of_add_le]
  exact BitVec.extractLsb'_eq_self

@[simp] theorem formatI_imm16 : (extractFields (formatI op d s1 low)).imm16 = low := by
  simp (disch := decide) only [extractFields, formatI, BitVec.extractLsb'_append_eq_of_add_le]
  exact BitVec.extractLsb'_eq_self

@[simp] theorem formatI_disp16 : (extractFields (formatI op d s1 low)).disp16 = low := by
  simp (disch := decide) only [extractFields, formatI, BitVec.extractLsb'_append_eq_of_add_le]
  exact BitVec.extractLsb'_eq_self

@[simp] theorem formatT_op : (extractFields (formatT op2 scale d s1 s2)).op = opTriadic := by
  simp (disch := decide) only [extractFields, formatT, BitVec.extractLsb'_append_eq_of_le]
  exact BitVec.extractLsb'_eq_self

@[simp] theorem formatT_d : (extractFields (formatT op2 scale d s1 s2)).d = d := by
  simp (disch := decide) only [extractFields, formatT, BitVec.extractLsb'_append_eq_of_le,
    BitVec.extractLsb'_append_eq_of_add_le]
  exact BitVec.extractLsb'_eq_self

@[simp] theorem formatT_s1 : (extractFields (formatT op2 scale d s1 s2)).s1 = s1 := by
  simp (disch := decide) only [extractFields, formatT, BitVec.extractLsb'_append_eq_of_le,
    BitVec.extractLsb'_append_eq_of_add_le]
  exact BitVec.extractLsb'_eq_self

@[simp] theorem formatT_op2 : (extractFields (formatT op2 scale d s1 s2)).op2 = op2 := by
  simp (disch := decide) only [extractFields, formatT, BitVec.extractLsb'_append_eq_of_le,
    BitVec.extractLsb'_append_eq_of_add_le]
  exact BitVec.extractLsb'_eq_self

@[simp] theorem formatT_scale : (extractFields (formatT op2 scale d s1 s2)).scale = scale := by
  simp (disch := decide) only [extractFields, formatT, BitVec.extractLsb'_append_eq_of_le,
    BitVec.extractLsb'_append_eq_of_add_le]
  exact BitVec.extractLsb'_eq_self

@[simp] theorem formatT_s2 : (extractFields (formatT op2 scale d s1 s2)).s2 = s2 := by
  simp (disch := decide) only [extractFields, formatT, BitVec.extractLsb'_append_eq_of_add_le]
  exact BitVec.extractLsb'_eq_self

@[simp] theorem formatB_op : (extractFields (formatB op2 d s1 s2)).op = opBitfield := by
  simp (disch := decide) only [extractFields, formatB, BitVec.extractLsb'_append_eq_of_le]
  exact BitVec.extractLsb'_eq_self

@[simp] theorem formatB_d : (extractFields (formatB op2 d s1 s2)).d = d := by
  simp (disch := decide) only [extractFields, formatB, BitVec.extractLsb'_append_eq_of_le,
    BitVec.extractLsb'_append_eq_of_add_le]
  exact BitVec.extractLsb'_eq_self

@[simp] theorem formatB_s1 : (extractFields (formatB op2 d s1 s2)).s1 = s1 := by
  simp (disch := decide) only [extractFields, formatB, BitVec.extractLsb'_append_eq_of_le,
    BitVec.extractLsb'_append_eq_of_add_le]
  exact BitVec.extractLsb'_eq_self

@[simp] theorem formatB_op2 : (extractFields (formatB op2 d s1 s2)).op2 = op2 := by
  simp (disch := decide) only [extractFields, formatB, BitVec.extractLsb'_append_eq_of_le,
    BitVec.extractLsb'_append_eq_of_add_le]
  exact BitVec.extractLsb'_eq_self

@[simp] theorem formatB_s2 : (extractFields (formatB op2 d s1 s2)).s2 = s2 := by
  simp (disch := decide) only [extractFields, formatB, BitVec.extractLsb'_append_eq_of_add_le]
  exact BitVec.extractLsb'_eq_self

@[simp] theorem formatJ_op : (extractFields (formatJ op disp)).op = op := by
  simp (disch := decide) only [extractFields, formatJ, BitVec.extractLsb'_append_eq_of_le]
  exact BitVec.extractLsb'_eq_self

@[simp] theorem formatJ_disp26 : (extractFields (formatJ op disp)).disp26 = disp := by
  simp (disch := decide) only [extractFields, formatJ, BitVec.extractLsb'_append_eq_of_add_le]
  exact BitVec.extractLsb'_eq_self

@[simp] theorem formatH_op : (extractFields (formatH op)).op = op := by
  simp (disch := decide) only [extractFields, formatH, BitVec.extractLsb'_append_eq_of_le]
  exact BitVec.extractLsb'_eq_self

end formats

/-! ## Dispatch -/

/-- The fields of a word that selects an instruction: the opcodes of its form, and its operands
(30_encoding.md R72, R76, R78). -/
def SelectedBy (p : Params) (f : DecodedInstruction) : Instr → Prop
  | .halt => f.op = p.opc.opHalt
  | .ldImm d s1 imm => f.op = p.opc.opLdImm ∧ f.d = d ∧ f.s1 = s1 ∧ f.imm16 = imm
  | .ldReg d s1 s2 =>
    f.op = opTriadic ∧ f.op2 = p.opc.op2Ld ∧ f.scale = 0 ∧ f.d = d ∧ f.s1 = s1 ∧ f.s2 = s2
  | .ldScaled d s1 s2 =>
    f.op = opTriadic ∧ f.op2 = p.opc.op2Ld ∧ f.scale = 1 ∧ f.d = d ∧ f.s1 = s1 ∧ f.s2 = s2
  | .stImm d s1 imm => f.op = p.opc.opStImm ∧ f.d = d ∧ f.s1 = s1 ∧ f.imm16 = imm
  | .stReg d s1 s2 =>
    f.op = opTriadic ∧ f.op2 = p.opc.op2St ∧ f.scale = 0 ∧ f.d = d ∧ f.s1 = s1 ∧ f.s2 = s2
  | .stScaled d s1 s2 =>
    f.op = opTriadic ∧ f.op2 = p.opc.op2St ∧ f.scale = 1 ∧ f.d = d ∧ f.s1 = s1 ∧ f.s2 = s2
  | .ldaImm d s1 imm => f.op = p.opc.opLdaImm ∧ f.d = d ∧ f.s1 = s1 ∧ f.imm16 = imm
  | .ldaReg d s1 s2 =>
    f.op = opTriadic ∧ f.op2 = p.opc.op2Lda ∧ f.scale = 0 ∧ f.d = d ∧ f.s1 = s1 ∧ f.s2 = s2
  | .ldaScaled d s1 s2 =>
    f.op = opTriadic ∧ f.op2 = p.opc.op2Lda ∧ f.scale = 1 ∧ f.d = d ∧ f.s1 = s1 ∧ f.s2 = s2
  | .addImm d s1 imm => f.op = p.opc.opAddImm ∧ f.d = d ∧ f.s1 = s1 ∧ f.imm16 = imm
  | .addReg d s1 s2 => f.op = opTriadic ∧ f.op2 = p.opc.op2Add ∧ f.d = d ∧ f.s1 = s1 ∧ f.s2 = s2
  | .subImm d s1 imm => f.op = p.opc.opSubImm ∧ f.d = d ∧ f.s1 = s1 ∧ f.imm16 = imm
  | .subReg d s1 s2 => f.op = opTriadic ∧ f.op2 = p.opc.op2Sub ∧ f.d = d ∧ f.s1 = s1 ∧ f.s2 = s2
  | .br disp => f.op = p.opc.opBr ∧ f.disp26 = disp
  | .bcnd mask s1 disp => f.op = p.opc.opBcnd ∧ f.d = mask ∧ f.s1 = s1 ∧ f.disp16 = disp
  | .ext d s1 n => f.op = opBitfield ∧ f.op2 = p.opc.op2Ext ∧ f.d = d ∧ f.s1 = s1 ∧ f.s2 = n
  | .extu d s1 n => f.op = opBitfield ∧ f.op2 = p.opc.op2Extu ∧ f.d = d ∧ f.s1 = s1 ∧ f.s2 = n
  | .mak d s1 n => f.op = opBitfield ∧ f.op2 = p.opc.op2Mak ∧ f.d = d ∧ f.s1 = s1 ∧ f.s2 = n
  | .rot d s1 n => f.op = opBitfield ∧ f.op2 = p.opc.op2Rot ∧ f.d = d ∧ f.s1 = s1 ∧ f.s2 = n

/-- The scale flag is one bit. -/
theorem scale_cases (b : BitVec 1) : b = 0 ∨ b = 1 := by revert b; decide

theorem selectedBy_of_selectBitfield {p : Params} {f : DecodedInstruction} {i : Instr} (hop : f.op = opBitfield)
    (h : selectBitfield p f = .form i) : SelectedBy p f i := by
  unfold selectBitfield at h
  iterate 3
    split at h
    · rename_i h2; cases h; exact ⟨hop, h2, rfl, rfl, rfl⟩
  split at h
  · rename_i h2
    split at h
    · cases h
    · cases h; exact ⟨hop, h2, rfl, rfl, rfl⟩
  · cases h

theorem selectedBy_of_selectTriadic {p : Params} {f : DecodedInstruction} {i : Instr} (hop : f.op = opTriadic)
    (h : selectTriadic p f = .form i) : SelectedBy p f i := by
  have hs : f.scale ≠ 1 → f.scale = 0 := (scale_cases f.scale).resolve_right
  unfold selectTriadic at h
  iterate 3
    split at h
    · rename_i h2
      split at h
      · rename_i h3; cases h; exact ⟨hop, h2, h3, rfl, rfl, rfl⟩
      · rename_i h3; cases h; exact ⟨hop, h2, hs h3, rfl, rfl, rfl⟩
  iterate 2
    split at h
    · rename_i h2; cases h; exact ⟨hop, h2, rfl, rfl, rfl⟩
  cases h

/-- Everything `select` can answer with a form. -/
theorem selectedBy_of_select {p : Params} {f : DecodedInstruction} {i : Instr} (h : select p f = .form i) :
    SelectedBy p f i := by
  unfold select at h
  split at h
  · rename_i h1; cases h; exact h1
  iterate 5
    split at h
    · rename_i h1; cases h; exact ⟨h1, rfl, rfl, rfl⟩
  split at h
  · rename_i h1; cases h; exact ⟨h1, rfl⟩
  split at h
  · rename_i h1; cases h; exact ⟨h1, rfl, rfl, rfl⟩
  split at h
  · exact selectedBy_of_selectBitfield ‹_› h
  split at h
  · exact selectedBy_of_selectTriadic ‹_› h
  · cases h

/-- Under an admissible table the fields determine the form. -/
theorem select_of_selectedBy {p : Params} {f : DecodedInstruction} {i : Instr} (ha : p.opc.Admissible)
    (hr : p.rot0 = .identity ∨ i.wellFormedFor p.rot0 = true) (h : SelectedBy p f i) :
    select p f = .form i := by
  obtain ⟨a1, a2, a3⟩ := ha
  have b1 := List.nodup_reverse.2 a1
  have b2 := List.nodup_reverse.2 a2
  have b3 := List.nodup_reverse.2 a3
  simp only [List.reverse_cons, List.reverse_nil, List.nil_append, List.cons_append, List.nodup_cons,
    List.mem_cons, List.not_mem_nil, or_false, not_or, List.nodup_nil] at a1 a2 a3 b1 b2 b3
  cases i <;> simp only [SelectedBy] at h
  case rot d s1 n =>
    obtain ⟨h1, h2, rfl, rfl, rfl⟩ := h
    have hx : ¬ (p.rot0 = .fault ∧ f.s2 = 0) := by
      rintro ⟨h1, h2⟩
      rw [h1] at hr
      simp [Instr.wellFormedFor, h2] at hr
    simp only [select, selectBitfield, h1, h2, if_neg hx, b1, b2, if_true, if_false]
  all_goals simp [select, selectBitfield, selectTriadic, h, b1, b2, b3]


/-- A mask that covers only bits of a zero slice of a word meets the word nowhere. -/
theorem and_mask_eq_zero {w m : Word} (lo len : Nat)
    (hm : ∀ i < 32, m.getLsbD i = true → lo ≤ i ∧ i < lo + len) (hz : w.extractLsb' lo len = 0) :
    w &&& m = 0 := by
  apply BitVec.eq_of_getLsbD_eq
  intro i hi
  have h0 : (0 : Word).getLsbD i = false := BitVec.getLsbD_zero
  rw [BitVec.getLsbD_and, h0]
  cases hmi : m.getLsbD i with
  | false => exact Bool.and_false _
  | true =>
    obtain ⟨h1, h2⟩ := hm i hi hmi
    have h := congrArg (fun x => x.getLsbD (i - lo)) hz
    have h3 : i - lo < len := by omega
    have h4 : lo + (i - lo) = i := by omega
    simpa [BitVec.getLsbD_extractLsb', h3, h4] using h

/-! The bits of each format that the encoder leaves zero (30_encoding.md R79). -/

theorem formatT_low (op2 : Opcode) (scale : BitVec 1) (d s1 s2 : RegIdx) :
    formatT op2 scale d s1 s2 &&& 0x000001E0 = 0 := by
  refine and_mask_eq_zero 5 4 (by decide) ?_
  simp (disch := decide) only [formatT, BitVec.extractLsb'_append_eq_of_le,
    BitVec.extractLsb'_append_eq_of_add_le]
  exact BitVec.extractLsb'_eq_self

theorem formatT_low_unscaled (op2 : Opcode) (d s1 s2 : RegIdx) :
    formatT op2 0 d s1 s2 &&& 0x000003E0 = 0 := by
  have hlow := formatT_low op2 0 d s1 s2
  have hbit : formatT op2 0 d s1 s2 &&& 0x00000200 = 0 := by
    refine and_mask_eq_zero 9 1 (by decide) ?_
    simp (disch := decide) only [formatT, BitVec.extractLsb'_append_eq_of_le,
      BitVec.extractLsb'_append_eq_of_add_le]
    exact BitVec.extractLsb'_eq_self
  have hmask : (0x000003E0 : Word) = 0x000001E0 ||| 0x00000200 := by decide
  rw [hmask, BitVec.and_or_distrib_left, hlow, hbit]
  rfl

theorem formatB_low (op2 : Opcode) (d s1 : RegIdx) (n : ShiftCount) :
    formatB op2 d s1 n &&& 0x000003E0 = 0 := by
  refine and_mask_eq_zero 5 5 (by decide) ?_
  simp (disch := decide) only [formatB, BitVec.extractLsb'_append_eq_of_le,
    BitVec.extractLsb'_append_eq_of_add_le]
  exact BitVec.extractLsb'_eq_self

theorem formatH_low (op : Opcode) : formatH op &&& 0x03FFFFFF = 0 := by
  refine and_mask_eq_zero 0 26 (by decide) ?_
  simp (disch := decide) only [formatH, BitVec.extractLsb'_append_eq_of_add_le]
  exact BitVec.extractLsb'_eq_self

/-- Both profiles of the spec meet the constraints on a table. -/
theorem opcDoc_admissible : opcDoc.Admissible := by decide

theorem opcM88k_admissible : opcM88k.Admissible := by decide

/-! ## The formats bit by bit -/

theorem getLsbD_append_ite {n m : Nat} (x : BitVec n) (y : BitVec m) (i : Nat) :
    BitVec.getLsbD (x ++ y) i = if i < m then y.getLsbD i else x.getLsbD (i - m) := by
  rw [BitVec.getLsbD_append]

theorem formatI_bit (op : Opcode) (d s1 : BitVec 5) (low : BitVec 16) (i : Nat) :
    (formatI op d s1 low).getLsbD i =
      if i < 16 then low.getLsbD i
      else if i - 16 < 5 then s1.getLsbD (i - 16)
      else if i - 16 - 5 < 5 then d.getLsbD (i - 16 - 5)
      else op.getLsbD (i - 16 - 5 - 5) := by
  refine (getLsbD_append_ite (op ++ d ++ s1) low i).trans ?_
  rw [getLsbD_append_ite, getLsbD_append_ite]

theorem formatT_bit (op2 : Opcode) (scale : BitVec 1) (d s1 s2 : RegIdx) (i : Nat) :
    (formatT op2 scale d s1 s2).getLsbD i =
      if i < 5 then s2.getLsbD i
      else if i - 5 < 4 then (0 : BitVec 4).getLsbD (i - 5)
      else if i - 5 - 4 < 1 then scale.getLsbD (i - 5 - 4)
      else if i - 5 - 4 - 1 < 6 then op2.getLsbD (i - 5 - 4 - 1)
      else if i - 5 - 4 - 1 - 6 < 5 then s1.getLsbD (i - 5 - 4 - 1 - 6)
      else if i - 5 - 4 - 1 - 6 - 5 < 5 then d.getLsbD (i - 5 - 4 - 1 - 6 - 5)
      else opTriadic.getLsbD (i - 5 - 4 - 1 - 6 - 5 - 5) := by
  refine (getLsbD_append_ite (opTriadic ++ d ++ s1 ++ op2 ++ scale ++ (0 : BitVec 4)) s2 i).trans ?_
  rw [getLsbD_append_ite, getLsbD_append_ite, getLsbD_append_ite, getLsbD_append_ite, getLsbD_append_ite]

theorem formatB_bit (op2 : Opcode) (d s1 : RegIdx) (n : ShiftCount) (i : Nat) :
    (formatB op2 d s1 n).getLsbD i =
      if i < 5 then n.getLsbD i
      else if i - 5 < 5 then (0 : BitVec 5).getLsbD (i - 5)
      else if i - 5 - 5 < 6 then op2.getLsbD (i - 5 - 5)
      else if i - 5 - 5 - 6 < 5 then s1.getLsbD (i - 5 - 5 - 6)
      else if i - 5 - 5 - 6 - 5 < 5 then d.getLsbD (i - 5 - 5 - 6 - 5)
      else opBitfield.getLsbD (i - 5 - 5 - 6 - 5 - 5) := by
  refine (getLsbD_append_ite (opBitfield ++ d ++ s1 ++ op2 ++ (0 : BitVec 5)) n i).trans ?_
  rw [getLsbD_append_ite, getLsbD_append_ite, getLsbD_append_ite, getLsbD_append_ite]

theorem formatJ_bit (op : Opcode) (disp : Disp26) (i : Nat) :
    (formatJ op disp).getLsbD i = if i < 26 then disp.getLsbD i else op.getLsbD (i - 26) :=
  getLsbD_append_ite op disp i

theorem formatH_bit (op : Opcode) (i : Nat) :
    (formatH op).getLsbD i = if i < 26 then (0 : BitVec 26).getLsbD i else op.getLsbD (i - 26) :=
  getLsbD_append_ite op (0 : BitVec 26) i

end Sys2Proof
end

