-- ==== Sys2Proof/Laws/State.lean ====
section
/-! SUPPORT. One lemma per field per state update, each true by computation, so that no proof unfolds a record
update. An update that leaves a field alone has a lemma saying so. -/

namespace Sys2Proof.Machine
variable (s : State)

@[simp] theorem State.writeReg_fp (i v) : (s.writeReg i v).fp = s.fp := rfl
@[simp] theorem State.writeReg_ep (i v) : (s.writeReg i v).ep = s.ep := rfl
@[simp] theorem State.writeReg_runState (i v) : (s.writeReg i v).runState = s.runState := rfl
@[simp] theorem State.writeReg_faultCause (i v) : (s.writeReg i v).faultCause = s.faultCause := rfl
@[simp] theorem State.writeReg_faultInfo (i v) : (s.writeReg i v).faultInfo = s.faultInfo := rfl
@[simp] theorem State.writeReg_counters (i v) : (s.writeReg i v).counters = s.counters := rfl
@[simp] theorem State.writeReg_mem (i v) : (s.writeReg i v).mem = s.mem := rfl
@[simp] theorem State.writeReg_cache (i v) : (s.writeReg i v).cache = s.cache := rfl

@[simp] theorem State.setWord_regs (a v) : (s.setWord a v).regs = s.regs := rfl
@[simp] theorem State.setWord_fp (a v) : (s.setWord a v).fp = s.fp := rfl
@[simp] theorem State.setWord_ep (a v) : (s.setWord a v).ep = s.ep := rfl
@[simp] theorem State.setWord_runState (a v) : (s.setWord a v).runState = s.runState := rfl
@[simp] theorem State.setWord_faultCause (a v) : (s.setWord a v).faultCause = s.faultCause := rfl
@[simp] theorem State.setWord_faultInfo (a v) : (s.setWord a v).faultInfo = s.faultInfo := rfl
@[simp] theorem State.setWord_counters (a v) : (s.setWord a v).counters = s.counters := rfl
@[simp] theorem State.setWord_mem (a v) : (s.setWord a v).mem = s.mem.store (widx a) v := rfl
@[simp] theorem State.setWord_cache (a v) : (s.setWord a v).cache = s.cache := rfl

@[simp] theorem State.afterFetch_regs : s.afterFetch.regs = s.regs := rfl
@[simp] theorem State.afterFetch_fp : s.afterFetch.fp = s.fp + 4 := rfl
@[simp] theorem State.afterFetch_ep : s.afterFetch.ep = s.fp := rfl
@[simp] theorem State.afterFetch_runState : s.afterFetch.runState = s.runState := rfl
@[simp] theorem State.afterFetch_faultCause : s.afterFetch.faultCause = s.faultCause := rfl
@[simp] theorem State.afterFetch_faultInfo : s.afterFetch.faultInfo = s.faultInfo := rfl
@[simp] theorem State.afterFetch_counters : s.afterFetch.counters = s.counters.countFetch := rfl
@[simp] theorem State.afterFetch_mem : s.afterFetch.mem = s.mem := rfl
@[simp] theorem State.afterFetch_cache : s.afterFetch.cache = s.cache := rfl

@[simp] theorem State.branch_regs (b a) : (s.branch b a).regs = s.regs := rfl
@[simp] theorem State.branch_fp (b a) : (s.branch b a).fp = if b then a else s.fp := rfl
@[simp] theorem State.branch_ep (b a) : (s.branch b a).ep = s.ep := rfl
@[simp] theorem State.branch_runState (b a) : (s.branch b a).runState = s.runState := rfl
@[simp] theorem State.branch_faultCause (b a) : (s.branch b a).faultCause = s.faultCause := rfl
@[simp] theorem State.branch_faultInfo (b a) : (s.branch b a).faultInfo = s.faultInfo := rfl
@[simp] theorem State.branch_counters (b a) : (s.branch b a).counters = s.counters.countBranch b := rfl
@[simp] theorem State.branch_mem (b a) : (s.branch b a).mem = s.mem := rfl
@[simp] theorem State.branch_cache (b a) : (s.branch b a).cache = s.cache := rfl

@[simp] theorem State.raise_regs (c i) : (s.raise c i).regs = s.regs := rfl
@[simp] theorem State.raise_fp (c i) : (s.raise c i).fp = s.fp := rfl
@[simp] theorem State.raise_ep (c i) : (s.raise c i).ep = s.ep := rfl
@[simp] theorem State.raise_runState (c i) : (s.raise c i).runState = .faulted := rfl
@[simp] theorem State.raise_faultCause (c i) : (s.raise c i).faultCause = c := rfl
@[simp] theorem State.raise_faultInfo (c i) : (s.raise c i).faultInfo = i := rfl
@[simp] theorem State.raise_counters (c i) : (s.raise c i).counters = s.counters := rfl
@[simp] theorem State.raise_mem (c i) : (s.raise c i).mem = s.mem := rfl
@[simp] theorem State.raise_cache (c i) : (s.raise c i).cache = s.cache := rfl

@[simp] theorem State.halt_regs : s.halt.regs = s.regs := rfl
@[simp] theorem State.halt_fp : s.halt.fp = s.fp := rfl
@[simp] theorem State.halt_ep : s.halt.ep = s.ep := rfl
@[simp] theorem State.halt_runState : s.halt.runState = .halted := rfl
@[simp] theorem State.halt_faultCause : s.halt.faultCause = s.faultCause := rfl
@[simp] theorem State.halt_faultInfo : s.halt.faultInfo = s.faultInfo := rfl
@[simp] theorem State.halt_counters : s.halt.counters = s.counters := rfl
@[simp] theorem State.halt_mem : s.halt.mem = s.mem := rfl
@[simp] theorem State.halt_cache : s.halt.cache = s.cache := rfl

@[simp] theorem State.cacheAccess_regs (a k) : (s.cacheAccess a k).regs = s.regs := rfl
@[simp] theorem State.cacheAccess_fp (a k) : (s.cacheAccess a k).fp = s.fp := rfl
@[simp] theorem State.cacheAccess_ep (a k) : (s.cacheAccess a k).ep = s.ep := rfl
@[simp] theorem State.cacheAccess_runState (a k) : (s.cacheAccess a k).runState = s.runState := rfl
@[simp] theorem State.cacheAccess_faultCause (a k) : (s.cacheAccess a k).faultCause = s.faultCause := rfl
@[simp] theorem State.cacheAccess_faultInfo (a k) : (s.cacheAccess a k).faultInfo = s.faultInfo := rfl
@[simp] theorem State.cacheAccess_mem (a k) : (s.cacheAccess a k).mem = s.mem := rfl
@[simp] theorem State.cacheAccess_counters (a k) :
    (s.cacheAccess a k).counters = s.counters.countAccess k (s.accessResult a k) := rfl

/-- The directory is always consulted (45_cache_directory.md R178). -/
@[simp] theorem State.consultDirectory_eq (a k) : s.consultDirectory a k = s.cacheAccess a k := rfl

end Sys2Proof.Machine
end

