-- ==== Sys2Proof/Laws/Ops.lean ====
section
/-! SUPPORT. What the shared operations do: the register file, memory and its canonical form, and the load and
store sequences. -/

namespace Sys2Proof.Machine

/-! ## Registers -/

@[simp] theorem State.readReg_zero (s : State) : s.readReg 0 = 0 := rfl

theorem State.readReg_congr {s t : State} (h : t.regs = s.regs) (r : RegIdx) : t.readReg r = s.readReg r := by
  simp only [State.readReg, h]

/-- The register file after a write, through the zero gate. -/
theorem State.readReg_writeReg (s : State) (i : RegIdx) (v : Word) (r : RegIdx) :
    (s.writeReg i v).readReg r = if r = i ∧ i ≠ 0 then v else s.readReg r := by
  unfold State.readReg State.writeReg
  by_cases hr : r = 0
  · subst hr
    have hx : ¬ ((0 : RegIdx) = i ∧ i ≠ 0) := fun h => h.2 h.1.symm
    rw [if_neg hx, if_pos rfl, if_pos rfl]
  · by_cases hi : i = 0
    · simp [hi]
    · have hne : (i.toNat = r.toNat) ↔ r = i := by
        rw [← BitVec.toNat_inj]; exact eq_comm
      simp only [hr, hi, if_false, ne_eq, not_false_eq_true, and_true]
      rw [Vector.getElem_set]
      simp only [hne]

@[simp] theorem State.readReg_afterFetch (s : State) (r) : s.afterFetch.readReg r = s.readReg r := rfl
@[simp] theorem State.readReg_cacheAccess (s : State) (a k r) : (s.cacheAccess a k).readReg r = s.readReg r := rfl
@[simp] theorem State.readReg_branch (s : State) (b a r) : (s.branch b a).readReg r = s.readReg r := rfl
@[simp] theorem State.readReg_raise (s : State) (c i r) : (s.raise c i).readReg r = s.readReg r := rfl
@[simp] theorem State.readReg_halt (s : State) (r) : s.halt.readReg r = s.readReg r := rfl
@[simp] theorem State.readReg_setWord (s : State) (a v r) : (s.setWord a v).readReg r = s.readReg r := rfl

/-! ## Memory -/

theorem memWords_eq : memWords = 262144 := rfl
theorem loadMaxWords_eq : loadMaxWords = 256 := rfl

/-- A store at an in-bounds index keeps the canonical form. -/
theorem Memory.wfFrom_store (m : Memory) (lo i : Nat) (v : Word) (h : m.wfFrom lo = true) (hlo : lo ≤ i)
    (hi : i < memWords) : (m.store i v).wfFrom lo = true := by
  induction m generalizing lo with
  | nil => simp [Memory.store, Memory.wfFrom, hlo, hi]
  | cons e rest ih =>
    obtain ⟨k, u⟩ := e
    simp only [Memory.wfFrom, Bool.and_eq_true, decide_eq_true_eq] at h
    obtain ⟨⟨h1, h2⟩, h3⟩ := h
    simp only [Memory.store]
    by_cases hik : i < k
    · simp only [hik, if_true, Memory.wfFrom, Bool.and_eq_true, decide_eq_true_eq]
      exact ⟨⟨hlo, hi⟩, ⟨by omega, h2⟩, h3⟩
    · by_cases he : i = k
      · subst he
        simp only [Nat.lt_irrefl, if_false, if_true, Memory.wfFrom, Bool.and_eq_true, decide_eq_true_eq]
        exact ⟨⟨hlo, hi⟩, h3⟩
      · simp only [hik, he, if_false, Memory.wfFrom, Bool.and_eq_true, decide_eq_true_eq]
        exact ⟨⟨h1, h2⟩, ih _ h3 (by omega)⟩

theorem Memory.wf_store {m : Memory} (h : m.wf = true) {i : Nat} (hi : i < memWords) (v : Word) :
    (m.store i v).wf = true := Memory.wfFrom_store m 0 i v h (Nat.zero_le _) hi

/-- No index below the bound of a canonical tail is listed. -/
theorem Memory.lookup_below (m : Memory) (lo i : Nat) (h : m.wfFrom lo = true) (hi : i < lo) :
    m.lookup i = none := by
  induction m generalizing lo with
  | nil => rfl
  | cons e rest ih =>
    obtain ⟨k, u⟩ := e
    simp only [Memory.wfFrom, Bool.and_eq_true, decide_eq_true_eq] at h
    have hk : k ≠ i := by omega
    simp only [Memory.lookup, hk, if_false]
    exact ih _ h.2 (by omega)

/-- The form is canonical: two memories in it that list the same word at every index are the same list. -/
theorem Memory.ext_of_wf (m m' : Memory) (lo lo' : Nat) (h : m.wfFrom lo = true) (h' : m'.wfFrom lo' = true)
    (he : ∀ i, m.lookup i = m'.lookup i) : m = m' := by
  induction m generalizing lo lo' m' with
  | nil =>
    cases m' with
    | nil => rfl
    | cons e rest =>
      have := he e.1
      simp [Memory.lookup] at this
  | cons e rest ih =>
    obtain ⟨k, u⟩ := e
    cases m' with
    | nil =>
      have := he k
      simp [Memory.lookup] at this
    | cons e' rest' =>
      obtain ⟨k', u'⟩ := e'
      simp only [Memory.wfFrom, Bool.and_eq_true, decide_eq_true_eq] at h h'
      have hkk : k = k' := by
        rcases Nat.lt_trichotomy k k' with hlt | heq | hgt
        · have hk := he k
          have : k' ≠ k := by omega
          simp only [Memory.lookup, if_true, this, if_false] at hk
          rw [Memory.lookup_below rest' (k' + 1) k h'.2 (by omega)] at hk
          cases hk
        · exact heq
        · have hk := he k'
          have : k ≠ k' := by omega
          simp only [Memory.lookup, if_true, this, if_false] at hk
          rw [Memory.lookup_below rest (k + 1) k' h.2 (by omega)] at hk
          cases hk
      subst hkk
      have hu := he k
      simp only [Memory.lookup, if_true, Option.some.injEq] at hu
      subst hu
      have hrest : rest = rest' := by
        refine ih rest' (k + 1) (k + 1) h.2 h'.2 fun i => ?_
        by_cases hi : k = i
        · subst hi
          rw [Memory.lookup_below rest (k + 1) k h.2 (by omega),
            Memory.lookup_below rest' (k + 1) k h'.2 (by omega)]
        · have := he i
          simpa only [Memory.lookup, hi, if_false] using this
      rw [hrest]

theorem widx_eq (a : Word) : widx a = a.toNat / 4 := by
  simp [widx, BitVec.toNat_ushiftRight, Nat.shiftRight_eq_div_pow]

/-- The bounds check in the spec's own form: the address is at most `0x000FFFFF`. -/
theorem inBounds_iff (a : Word) : inBounds a ↔ a.toNat ≤ 0x000FFFFF := by
  simp only [inBounds, widx_eq, memWords_eq]
  omega

theorem State.wordAt_of_inBounds {s : State} {a : Word} (h : inBounds a) :
    s.wordAt a = some (s.mem.word (widx a)) := by simp only [State.wordAt, h, if_true]

theorem State.wordAt_of_not_inBounds {s : State} {a : Word} (h : ¬ inBounds a) : s.wordAt a = none := by
  simp only [State.wordAt, h, if_false]

theorem State.wordAt_congr {s t : State} (h : t.mem = s.mem) (a : Word) : t.wordAt a = s.wordAt a := by
  simp only [State.wordAt, h]

@[simp] theorem State.wordAt_writeReg (s : State) (i v a) : (s.writeReg i v).wordAt a = s.wordAt a := rfl
@[simp] theorem State.wordAt_afterFetch (s : State) (a) : s.afterFetch.wordAt a = s.wordAt a := rfl
@[simp] theorem State.wordAt_cacheAccess (s : State) (b k a) : (s.cacheAccess b k).wordAt a = s.wordAt a := rfl
@[simp] theorem State.wordAt_branch (s : State) (b t a) : (s.branch b t).wordAt a = s.wordAt a := rfl
@[simp] theorem State.wordAt_raise (s : State) (c i a) : (s.raise c i).wordAt a = s.wordAt a := rfl
@[simp] theorem State.wordAt_halt (s : State) (a) : s.halt.wordAt a = s.wordAt a := rfl

/-- A word stored is the word read back. Needs no canonical form. -/
theorem Memory.lookup_store_self (m : Memory) (i : Nat) (v : Word) : (m.store i v).lookup i = some v := by
  induction m with
  | nil => simp [Memory.store, Memory.lookup]
  | cons e rest ih =>
    obtain ⟨k, u⟩ := e
    simp only [Memory.store]
    split
    · simp [Memory.lookup]
    · split
      · simp [Memory.lookup]
      · rename_i h1 h2
        simp only [Memory.lookup, Ne.symm h2, if_false, ih]

/-- A store leaves every other index alone. Needs no canonical form. -/
theorem Memory.lookup_store_of_ne (m : Memory) {i j : Nat} (v : Word) (h : j ≠ i) :
    (m.store i v).lookup j = m.lookup j := by
  induction m with
  | nil => simp [Memory.store, Memory.lookup, Ne.symm h]
  | cons e rest ih =>
    obtain ⟨k, u⟩ := e
    simp only [Memory.store]
    split
    · simp [Memory.lookup, Ne.symm h]
    · split
      · rename_i h1 h2
        subst h2
        simp [Memory.lookup, Ne.symm h]
      · simp only [Memory.lookup, ih]

theorem State.wordAt_setWord_self (s : State) {a b : Word} (v : Word) (ha : inBounds a) (hb : widx b = widx a) :
    (s.setWord a v).wordAt b = some v := by
  have hb' : inBounds b := by simp only [inBounds, hb]; exact ha
  rw [State.wordAt_of_inBounds hb', State.setWord_mem, Memory.word, hb, Memory.lookup_store_self]
  rfl

theorem State.wordAt_setWord_of_ne (s : State) {a b : Word} (v : Word) (h : widx b ≠ widx a) :
    (s.setWord a v).wordAt b = s.wordAt b := by
  simp only [State.wordAt, State.setWord_mem, Memory.word, Memory.lookup_store_of_ne _ _ h]

/-! ## The load and store sequences -/

/-- Everything a load can do. -/
theorem State.load_cases (s : State) (d : RegIdx) (a : Word) :
    (inBounds a ∧ s.load d a =
      (({ s with counters := s.counters.countMemRead } : State).writeReg d (s.mem.word (widx a))).cacheAccess a .read)
    ∨ (¬ inBounds a ∧ s.load d a = s.raise .outOfBoundsAccess a) := by
  by_cases h : inBounds a
  · exact .inl ⟨h, by simp only [State.load, State.memRead, State.wordAt_of_inBounds h, State.consultDirectory_eq]⟩
  · exact .inr ⟨h, by simp only [State.load, State.memRead, State.wordAt_of_not_inBounds h]⟩

/-- Everything a store can do. -/
theorem State.storeTo_cases (s : State) (d : RegIdx) (a : Word) :
    (inBounds a ∧ s.storeTo d a =
      ({ s.setWord a (s.readReg d) with counters := s.counters.countMemWrite } : State).cacheAccess a .write)
    ∨ (¬ inBounds a ∧ s.storeTo d a = s.raise .outOfBoundsAccess a) := by
  by_cases h : inBounds a
  · exact .inl ⟨h, by simp only [State.storeTo, State.memWrite, h, if_true, State.consultDirectory_eq]⟩
  · exact .inr ⟨h, by simp only [State.storeTo, State.memWrite, h, if_false]⟩

/-- The loader touches memory only. -/
theorem State.loadFrom_rest (program : List Word) (s : State) (i : Nat) :
    s.loadFrom i program = { s with mem := (s.loadFrom i program).mem } := by
  induction program generalizing s i with
  | nil => rfl
  | cons w rest ih =>
    rw [State.loadFrom, ih]
    rfl

/-- Memory after the loader, index by index. -/
theorem State.lookup_loadFrom (program : List Word) (s : State) (n i : Nat) :
    (s.loadFrom n program).mem.lookup i =
      if h : n ≤ i ∧ i - n < program.length then some program[i - n] else s.mem.lookup i := by
  induction program generalizing s n with
  | nil => simp [State.loadFrom]
  | cons w rest ih =>
    rw [State.loadFrom, ih]
    by_cases h1 : n = i
    · subst h1
      simp [State.presetWord, Memory.lookup_store_self]
    · by_cases h2 : n + 1 ≤ i ∧ i - (n + 1) < rest.length
      · rw [dif_pos h2, dif_pos ⟨by omega, by simp; omega⟩]
        congr 1
        have : i - n = (i - (n + 1)) + 1 := by omega
        simp [this]
      · rw [dif_neg h2, dif_neg (by simp; omega)]
        exact Memory.lookup_store_of_ne _ _ (Ne.symm h1)

/-- The loader keeps the canonical form while it stays inside memory. -/
theorem State.wf_loadFrom (program : List Word) (s : State) (n : Nat) (h : s.mem.wf = true)
    (hn : n + program.length ≤ memWords) : (s.loadFrom n program).mem.wf = true := by
  induction program generalizing s n with
  | nil => exact h
  | cons w rest ih =>
    simp only [List.length_cons] at hn
    rw [State.loadFrom]
    exact ih _ _ (Memory.wf_store h (by omega) _) (by omega)

end Sys2Proof.Machine
end

