-- ==== Sys2Proof/Laws/Directory.lean ====
section
/-! SUPPORT. What `CacheAccess` does to the directory. -/

namespace Sys2Proof.Machine

theorem State.cacheSet_congr {s t : State} (h : t.cache = s.cache) (i : SetIdx) : t.cacheSet i = s.cacheSet i := by
  simp only [State.cacheSet, h]

@[simp] theorem State.cacheSet_writeReg (s : State) (r v i) : (s.writeReg r v).cacheSet i = s.cacheSet i := rfl
@[simp] theorem State.cacheSet_afterFetch (s : State) (i) : s.afterFetch.cacheSet i = s.cacheSet i := rfl
@[simp] theorem State.cacheSet_branch (s : State) (b a i) : (s.branch b a).cacheSet i = s.cacheSet i := rfl
@[simp] theorem State.cacheSet_raise (s : State) (c x i) : (s.raise c x).cacheSet i = s.cacheSet i := rfl
@[simp] theorem State.cacheSet_halt (s : State) (i) : s.halt.cacheSet i = s.cacheSet i := rfl
@[simp] theorem State.cacheSet_setWord (s : State) (a v i) : (s.setWord a v).cacheSet i = s.cacheSet i := rfl

/-- The set number of an address, in numbers (45_cache_directory.md R161). -/
theorem setIndex_toNat (a : Word) : (setIndex a).toNat = a.toNat / 8 % 64 := by
  have hmask : (BitVec.ofNat 32 configuration.indexMask).toNat = 2 ^ 6 - 1 := rfl
  have hshift : configuration.indexShift = 3 := rfl
  rw [setIndex, BitVec.toNat_setWidth, BitVec.toNat_and, hmask, Nat.and_two_pow_sub_one_eq_mod, hshift,
    BitVec.toNat_ushiftRight, Nat.shiftRight_eq_div_pow]
  omega

/-- The line tag of an address, in numbers (45_cache_directory.md R161). -/
theorem lineTag_toNat (a : Word) : (lineTag a).toNat = a.toNat / 512 := by
  have hshift : configuration.tagShift = 9 := rfl
  rw [lineTag, BitVec.toNat_setWidth, hshift, BitVec.toNat_ushiftRight, Nat.shiftRight_eq_div_pow]
  omega

/-- The directory after an access: the set the address selects is replaced, every other set is as before. -/
theorem State.cacheSet_cacheAccess (s : State) (a : Word) (k : AccessKind) (i : SetIdx) :
    (s.cacheAccess a k).cacheSet i =
      if i = setIndex a then ((s.cacheSet i).access (lineTag a) k).1 else s.cacheSet i := by
  have hne : ((setIndex a).toNat = i.toNat) ↔ i = setIndex a := by
    rw [← BitVec.toNat_inj]; exact eq_comm
  simp only [State.cacheSet, State.cacheAccess]
  rw [Vector.getElem_set]
  simp only [hne]
  split
  · rename_i h; subst h; rfl
  · rfl

/-- Everything an access can do within its set: a hit uses the way that holds the tag, a miss installs the line in
the victim; a write then dirties it. -/
theorem CacheSet.access_cases (c : CacheSet) (t : Tag) (k : AccessKind) :
    (∃ w, c.probe t = some w ∧ (c.way w).valid = true ∧ (c.way w).tag = t ∧
      c.access t k = (c.use w ((c.way w).dirtiedBy k), .hit)) ∨
    (c.probe t = none ∧ (∀ w, (c.way w).valid = true → (c.way w).tag ≠ t) ∧
      (c.access t k).1 = c.use c.victim ((CacheWay.installed t).dirtiedBy k) ∧
      (c.access t k).2 =
        if (c.way c.victim).valid && (c.way c.victim).dirty then .missWithWriteBack else .miss) := by
  cases hp : c.probe t with
  | some w =>
    left
    refine ⟨w, rfl, ?_⟩
    have hw : (c.way w).holds t = true := by
      unfold CacheSet.probe at hp
      split at hp
      · cases hp; assumption
      · split at hp
        · cases hp; assumption
        · cases hp
    simp only [CacheWay.holds, Bool.and_eq_true, beq_iff_eq] at hw
    exact ⟨hw.1, hw.2, by simp only [CacheSet.access, hp]⟩
  | none =>
    right
    refine ⟨rfl, ?_, by simp only [CacheSet.access, hp], by simp only [CacheSet.access, hp]⟩
    intro w hv ht
    unfold CacheSet.probe at hp
    have hh : (c.way w).holds t = true := by simp [CacheWay.holds, hv, ht]
    cases w with
    | way0 => simp only [CacheSet.way] at hh; simp [hh] at hp
    | way1 =>
      simp only [CacheSet.way] at hh
      rw [if_pos hh] at hp
      split at hp <;> cases hp

@[simp] theorem CacheSet.use_lastUsedWay (c : CacheSet) (w l) : (c.use w l).lastUsedWay = w := by cases w <;> rfl
@[simp] theorem CacheSet.use_way_self (c : CacheSet) (w l) : (c.use w l).way w = l := by cases w <;> rfl
@[simp] theorem CacheSet.use_way_other (c : CacheSet) (w l) : (c.use w l).way w.other = c.way w.other := by
  cases w <;> rfl
@[simp] theorem CacheWay.dirtiedBy_valid (l : CacheWay) (k) : (l.dirtiedBy k).valid = l.valid := by cases k <;> rfl
@[simp] theorem CacheWay.dirtiedBy_tag (l : CacheWay) (k) : (l.dirtiedBy k).tag = l.tag := by cases k <;> rfl
@[simp] theorem CacheWay.dirtiedBy_read (l : CacheWay) : l.dirtiedBy .read = l := rfl
@[simp] theorem CacheWay.dirtiedBy_write_dirty (l : CacheWay) : (l.dirtiedBy .write).dirty = true := rfl
@[simp] theorem CacheWay.installed_valid (t) : (CacheWay.installed t).valid = true := rfl
@[simp] theorem CacheWay.installed_tag (t) : (CacheWay.installed t).tag = t := rfl
@[simp] theorem CacheWay.installed_dirty (t) : (CacheWay.installed t).dirty = false := rfl

end Sys2Proof.Machine
end

