-- ==== Sys2Proof/Laws/Operands.lean ====
section
/-! SUPPORT. What the operand forms, the branch target, the flag of `bcnd` and the rotate compute, in numbers. -/

namespace Sys2Proof.Machine

@[simp] theorem State.operandBWith_afterFetch (s : State) (p : Params) (b : OperandB) :
    s.afterFetch.operandBWith p b = s.operandBWith p b := by cases b <;> rfl

@[simp] theorem State.effectiveAddressWith_afterFetch (s : State) (p : Params) (s1 : RegIdx) (b : OperandB) :
    s.afterFetch.effectiveAddressWith p s1 b = s.effectiveAddressWith p s1 b := by
  simp only [State.effectiveAddressWith, State.readReg_afterFetch, State.operandBWith_afterFetch]

@[simp] theorem State.operandB_afterFetch (s : State) (b : OperandB) :
    s.afterFetch.operandB b = s.operandB b := State.operandBWith_afterFetch s params b

@[simp] theorem State.effectiveAddress_afterFetch (s : State) (s1 : RegIdx) (b : OperandB) :
    s.afterFetch.effectiveAddress s1 b = s.effectiveAddress s1 b := State.effectiveAddressWith_afterFetch s params s1 b

theorem State.operandB_imm (s : State) (v : Imm16) : s.operandB (.imm v) = v.zeroExtend 32 := rfl
theorem State.operandB_reg (s : State) (r : RegIdx) : s.operandB (.reg r) = s.readReg r := rfl
theorem State.operandB_scaled (s : State) (r : RegIdx) : s.operandB (.scaled r) = s.readReg r <<< 2 := rfl

theorem State.effectiveAddress_eq (s : State) (s1 : RegIdx) (b : OperandB) :
    s.effectiveAddress s1 b = s.readReg s1 + s.operandB b := rfl

/-- A sign-extended displacement shifted left by 2 and added is four times its signed value added. -/
theorem add_displacement {n : Nat} (hn : n ≤ 30) (base : Word) (disp : BitVec n) :
    base + (disp.signExtend 32 <<< 2) = BitVec.ofInt 32 (base.toNat + 4 * disp.toInt) := by
  apply BitVec.eq_of_toInt_eq
  rw [BitVec.toInt_ofInt]
  have e : (disp.signExtend 32).toInt = disp.toInt := by
    rw [BitVec.toInt_signExtend_of_le (by omega)]
  have e2 : (disp.signExtend 32 <<< 2) = BitVec.ofInt 32 (4 * disp.toInt) := by
    rw [← e]
    apply BitVec.eq_of_toInt_eq
    rw [BitVec.toInt_shiftLeft, BitVec.toInt_ofInt, Nat.shiftLeft_eq]
    rw [BitVec.toInt_eq_toNat_bmod]
    push_cast
    rw [mul_comm]
    simp [Int.mul_bmod_bmod]
  rw [e2, BitVec.toInt_add, BitVec.toInt_ofInt, BitVec.toInt_eq_toNat_bmod]
  simp [Int.add_bmod_bmod, Int.bmod_add_bmod]

/-- The flag of `bcnd` by the sign of the value. -/
theorem conditionFlag_eq (v : Word) :
    conditionFlag v = if 0 < v.toInt then 0 else if v.toInt = 0 then 1 else 2 := by
  have hz : v = 0 ↔ v.toInt = 0 :=
    ⟨fun h => by simp [h], fun h => BitVec.eq_of_toInt_eq (by simpa using h)⟩
  unfold conditionFlag
  by_cases h0 : v = 0
  · subst h0
    decide
  · have hi : v.toInt ≠ 0 := fun h => h0 (hz.2 h)
    rw [if_neg h0, if_neg hi]
    by_cases hp : 0 < v.toInt
    · have : v.msb = false := by
        rw [BitVec.msb_eq_toInt]
        simp
        omega
      simp [hp, this]
    · have : v.msb = true := by
        rw [BitVec.msb_eq_toInt]
        simp
        omega
      simp [hp, this]

/-- A rotate right by `n` takes bit `i` to bit `(i - n) mod 32`. -/
theorem alu_ror_bit (a b : Word) (n : ShiftCount) (i : Nat) (hi : i < 32) :
    (alu .ror a b n).getLsbD ((i + 32 - n.toNat) % 32) = a.getLsbD i := by
  simp only [alu]
  have hn := n.isLt
  split
  · rename_i h; subst h; simp; congr 1; omega
  · rename_i h
    have h0 : n.toNat ≠ 0 := fun h' => h (BitVec.eq_of_toNat_eq h')
    simp only [ror32, BitVec.getLsbD_or, BitVec.getLsbD_ushiftRight, BitVec.getLsbD_shiftLeft]
    by_cases hc : n.toNat ≤ i
    · have e : (i + 32 - n.toNat) % 32 = i - n.toNat := by omega
      rw [e, show n.toNat + (i - n.toNat) = i by omega]
      simp; intro _ h3; omega
    · have e : (i + 32 - n.toNat) % 32 = i + 32 - n.toNat := by omega
      rw [e, show n.toNat + (i + 32 - n.toNat) = i + 32 by omega, show (i + 32 - n.toNat - (32 - n.toNat)) = i by omega]
      have : a.getLsbD (i+32) = false := BitVec.getLsbD_of_ge _ _ (by omega)
      rw [this]; simp; intro _; omega

end Sys2Proof.Machine
end

