-- ==== Sys2Proof/Laws/PerInstr.lean ====
section
/-! SUPPORT. The per-instruction family `CanonicalEncoding`: the encoder leaves every bit that no rule looks at
zero (30_encoding.md R79, R88). -/

namespace Sys2Proof.Laws.CanonicalEncoding

/-- The canonical word of `i` has none of the ignored bits of its form set. -/
def Statement (i : Instr) : Prop := encode i &&& i.ignoredBits = 0

theorem halt : Statement (.halt) := formatH_low _
theorem ldImm (d s1 imm) : Statement (.ldImm d s1 imm) := BitVec.and_zero
theorem ldReg (d s1 s2) : Statement (.ldReg d s1 s2) := formatT_low _ _ _ _ _
theorem ldScaled (d s1 s2) : Statement (.ldScaled d s1 s2) := formatT_low _ _ _ _ _
theorem stImm (d s1 imm) : Statement (.stImm d s1 imm) := BitVec.and_zero
theorem stReg (d s1 s2) : Statement (.stReg d s1 s2) := formatT_low _ _ _ _ _
theorem stScaled (d s1 s2) : Statement (.stScaled d s1 s2) := formatT_low _ _ _ _ _
theorem ldaImm (d s1 imm) : Statement (.ldaImm d s1 imm) := BitVec.and_zero
theorem ldaReg (d s1 s2) : Statement (.ldaReg d s1 s2) := formatT_low _ _ _ _ _
theorem ldaScaled (d s1 s2) : Statement (.ldaScaled d s1 s2) := formatT_low _ _ _ _ _
theorem addImm (d s1 imm) : Statement (.addImm d s1 imm) := BitVec.and_zero
theorem addReg (d s1 s2) : Statement (.addReg d s1 s2) := formatT_low_unscaled _ _ _ _
theorem subImm (d s1 imm) : Statement (.subImm d s1 imm) := BitVec.and_zero
theorem subReg (d s1 s2) : Statement (.subReg d s1 s2) := formatT_low_unscaled _ _ _ _
theorem br (disp) : Statement (.br disp) := BitVec.and_zero
theorem bcnd (mask s1 disp) : Statement (.bcnd mask s1 disp) := BitVec.and_zero
theorem ext (d s1 n) : Statement (.ext d s1 n) := formatB_low _ _ _ _
theorem extu (d s1 n) : Statement (.extu d s1 n) := formatB_low _ _ _ _
theorem mak (d s1 n) : Statement (.mak d s1 n) := formatB_low _ _ _ _
theorem rot (d s1 n) : Statement (.rot d s1 n) := formatB_low _ _ _ _

end Sys2Proof.Laws.CanonicalEncoding
end

