-- ==== Sys2Proof/Laws/Step.lean ====
section
/-! SUPPORT. Everything one step can do, and everything `exec` can do, each said once. -/

namespace Sys2Proof.Machine

/-- Everything a step can do: nothing once the run has ended; a failed fetch; an unknown word; or the instruction
its word selects, run on the state after the fetch. -/
theorem step_cases {s t : State} (h : step s = .next t) :
    (s.runState ≠ .running ∧ t = s) ∨
    (s.runState = .running ∧ s.wordAt s.fp = none ∧ t = s.raise .outOfBoundsAccess s.fp) ∨
    (∃ iw, s.runState = .running ∧ s.wordAt s.fp = some iw ∧ decode iw = .unknownInstruction ∧
      t = s.afterFetch.raise .unknownInstruction iw) ∨
    (∃ iw i, s.runState = .running ∧ s.wordAt s.fp = some iw ∧ decode iw = .form i ∧
      exec i s.afterFetch = .next t) := by
  simp only [step, runCycle] at h
  cases hr : s.runState with
  | halted => rw [hr] at h; cases h; exact .inl ⟨by simp, rfl⟩
  | faulted => rw [hr] at h; cases h; exact .inl ⟨by simp, rfl⟩
  | running =>
    right
    simp only [hr, State.fetch] at h
    cases hf : s.wordAt s.fp with
    | none => simp only [hf] at h; cases h; exact .inl ⟨rfl, rfl, rfl⟩
    | some iw =>
      right
      simp only [hf] at h
      cases hd : decode iw with
      | unknownInstruction => simp only [hd] at h; cases h; exact .inl ⟨iw, rfl, rfl, hd, rfl⟩
      | form i => simp only [hd] at h; exact .inr ⟨iw, i, rfl, rfl, hd, h⟩

/-- Everything `br` can do. -/
theorem execBr_eq (disp : Disp26) (s : State) :
    execBr disp s = .next (if disp = 0 then s.raise .invalidBranchEncoding (encode (.br disp))
      else s.branch true (s.branchTarget (brOffset disp))) := by
  simp only [execBr, execBrWith, encode]; split <;> rfl

/-- Everything `bcnd` can do. -/
theorem execBcnd_eq (mask : CondMask) (s1 : RegIdx) (disp : Disp16) (s : State) :
    execBcnd mask s1 disp s = .next (if disp = 0 then s.raise .invalidBranchEncoding (encode (.bcnd mask s1 disp))
      else s.branch (conditionHolds mask (s.readReg s1)) (s.branchTarget (bcndOffset disp))) := by
  simp only [execBcnd, execBcndWith, encode]; split <;> rfl

/-- Everything an instruction can do: stop the run well, load, store, write one register, branch, or raise the one
fatal condition of the branches. -/
theorem exec_cases (i : Instr) (s : State) :
    (i = .halt ∧ exec i s = .next s.halt) ∨
    (∃ d a, exec i s = .next (s.load d a)) ∨
    (∃ d a, exec i s = .next (s.storeTo d a)) ∨
    (∃ d v, exec i s = .next (s.writeReg d v)) ∨
    (∃ (b : Bool) (off : Word), off.toNat % 4 = 0 ∧ exec i s = .next (s.branch b (s.branchTarget off))) ∨
    (exec i s = .next (s.raise .invalidBranchEncoding (encode i))) := by
  have shifted : ∀ v : Word, (v <<< 2).toNat % 4 = 0 := by
    intro v
    simp only [BitVec.toNat_shiftLeft, Nat.shiftLeft_eq]
    omega
  cases i with
  | halt => exact .inl ⟨rfl, rfl⟩
  | ldImm d s1 imm => exact .inr (.inl ⟨d, _, rfl⟩)
  | ldReg d s1 s2 => exact .inr (.inl ⟨d, _, rfl⟩)
  | ldScaled d s1 s2 => exact .inr (.inl ⟨d, _, rfl⟩)
  | stImm d s1 imm => exact .inr (.inr (.inl ⟨d, _, rfl⟩))
  | stReg d s1 s2 => exact .inr (.inr (.inl ⟨d, _, rfl⟩))
  | stScaled d s1 s2 => exact .inr (.inr (.inl ⟨d, _, rfl⟩))
  | ldaImm d s1 imm => exact .inr (.inr (.inr (.inl ⟨d, _, rfl⟩)))
  | ldaReg d s1 s2 => exact .inr (.inr (.inr (.inl ⟨d, _, rfl⟩)))
  | ldaScaled d s1 s2 => exact .inr (.inr (.inr (.inl ⟨d, _, rfl⟩)))
  | addImm d s1 imm => exact .inr (.inr (.inr (.inl ⟨d, _, rfl⟩)))
  | addReg d s1 s2 => exact .inr (.inr (.inr (.inl ⟨d, _, rfl⟩)))
  | subImm d s1 imm => exact .inr (.inr (.inr (.inl ⟨d, _, rfl⟩)))
  | subReg d s1 s2 => exact .inr (.inr (.inr (.inl ⟨d, _, rfl⟩)))
  | ext d s1 n => exact .inr (.inr (.inr (.inl ⟨d, _, rfl⟩)))
  | extu d s1 n => exact .inr (.inr (.inr (.inl ⟨d, _, rfl⟩)))
  | mak d s1 n => exact .inr (.inr (.inr (.inl ⟨d, _, rfl⟩)))
  | rot d s1 n => exact .inr (.inr (.inr (.inl ⟨d, _, rfl⟩)))
  | br disp =>
    refine .inr (.inr (.inr (.inr ?_)))
    by_cases h : disp = 0
    · exact .inr (by simp only [exec, execBr_eq, h, if_true])
    · exact .inl ⟨true, _, shifted _, by simp only [exec, execBr_eq, h, if_false]; rfl⟩
  | bcnd mask s1 disp =>
    refine .inr (.inr (.inr (.inr ?_)))
    by_cases h : disp = 0
    · exact .inr (by simp only [exec, execBcnd_eq, h, if_true])
    · exact .inl ⟨_, _, shifted _, by simp only [exec, execBcnd_eq, h, if_false]; rfl⟩

/-! ## The parameter record -/

/-- `exec` is the handler under the defaults. -/
theorem execWith_params (i : Instr) (s : State) : execWith params i s = exec i s := by cases i <;> rfl

/-- `step` is the step under the defaults. -/
theorem stepWith_params (s : State) : stepWith params s = step s := by
  have h : execWith params = exec := funext fun i => funext fun s => execWith_params i s
  rw [stepWith, step, h]
  rfl

/-! ## Runs -/

theorem run_of_next (M : Host.Core) {s t : M.State} (h : M.step s = .next t) (k : Nat) :
    M.run (k + 1) s = M.run k t := by
  have e : M.run (k + 1) s =
      match M.step s with
      | .next s' => M.run k s'
      | .fault r => .fault r
      | .refused r => .refused r := rfl
  rw [h] at e
  exact e

/-- A run of one more step from a state whose step answers a next state. -/
theorem core_run_of_next {s t : State} (h : step s = .next t) (k : Nat) :
    Sys2Proof.core.run (k + 1) s = Sys2Proof.core.run k t :=
  run_of_next Sys2Proof.core h k

end Sys2Proof.Machine
end

