-- ==== Sys2Proof/Tests/Slice0.lean ====
section
/-! SUPPORT. The model's own tests: the smoke test of the well-formedness checks, one written-out word for each
constructor, one-step tests, and a witness for each statement that has hypotheses. The expected values are the
vectors of 95_test_vectors.md, named by their row, unless a comment says otherwise. -/

namespace Sys2Proof.Tests

open Sys2Proof.Machine

/-! ## Helpers -/

/-- The reset state with this fetch pointer, these registers and these words of memory. -/
def machine (fp : Word) (regs : List (RegIdx × Word)) (words : List (Nat × Word)) : State :=
  regs.foldl (fun s e => s.writeReg e.1 e.2)
    (words.foldl (fun s e => s.presetWord e.1 e.2) { State.reset with fp := fp })

/-- The state after one step. -/
def after (s : State) : State :=
  match step s with
  | .next t => t
  | .fault r => nomatch r
  | .refused _ => s

/-- One cycle on the word at `fp`. -/
def cycle (fp word : Word) (regs : List (RegIdx × Word)) (words : List (Nat × Word)) : State :=
  after (machine fp regs ((widx fp, word) :: words))

/-- The fault record, with the run state. -/
def fatal (s : State) : RunState × Nat × Word := (s.runState, s.faultCause.code, s.faultInfo)

/-- A sequence of directory accesses from reset. -/
def accesses (l : List (Word × AccessKind)) : State :=
  l.foldl (fun s e => s.cacheAccess e.1 e.2) State.reset

/-! ## The well-formedness checks refuse -/

theorem test_ill_formed_br : (Instr.br 0).wellFormedFor .identity = false := by decide
theorem test_ill_formed_bcnd : (Instr.bcnd 7 1 0).wellFormedFor .identity = false := by decide
theorem test_ill_formed_rot : (Instr.rot 9 8 0).wellFormedFor .fault = false := by decide
theorem test_well_formed_rot : (Instr.rot 9 8 0).wellFormedFor .identity = true := by decide
theorem test_well_formed_br : (Instr.br 1).wellFormedFor .fault = true := by decide

/-! ## Decoding: the words of 95_test_vectors.md 2.2 and 2.4, the operands read off R61 and R72 -/

theorem test_decode_halt : decode 0x03FFFFFF = .form .halt := by decide
theorem test_decode_ldImm : decode 0x5C200004 = .form (.ldImm 1 0 4) := by decide
theorem test_decode_ldReg : decode 0xF44315E4 = .form (.ldReg 2 3 4) := by decide
theorem test_decode_ldScaled : decode 0xF4431604 = .form (.ldScaled 2 3 4) := by decide
theorem test_decode_stImm : decode 0x24430010 = .form (.stImm 2 3 0x10) := by decide
theorem test_decode_stReg : decode 0xF4432404 = .form (.stReg 2 3 4) := by decide
theorem test_decode_stScaled : decode 0xF4C52606 = .form (.stScaled 6 5 6) := by decide
theorem test_decode_ldaImm : decode 0x34A00200 = .form (.ldaImm 5 0 0x200) := by decide
theorem test_decode_ldaReg : decode 0xF5C53406 = .form (.ldaReg 14 5 6) := by decide
theorem test_decode_ldaScaled : decode 0xF5C53606 = .form (.ldaScaled 14 5 6) := by decide
theorem test_decode_addImm : decode 0x70220005 = .form (.addImm 1 2 5) := by decide
theorem test_decode_addReg : decode 0xF44273E1 = .form (.addReg 2 2 1) := by decide
theorem test_decode_subImm : decode 0x75600001 = .form (.subImm 11 0 1) := by decide
theorem test_decode_subReg : decode 0xF4617602 = .form (.subReg 3 1 2) := by decide
theorem test_decode_br : decode 0xC3FFFFFF = .form (.br 0x3FFFFFF) := by decide
theorem test_decode_bcnd : decode 0xE8A1FFFE = .form (.bcnd 5 1 0xFFFE) := by decide
theorem test_decode_ext : decode 0xF18B93E4 = .form (.ext 12 11 4) := by decide
theorem test_decode_extu : decode 0xF1AB9804 = .form (.extu 13 11 4) := by decide
theorem test_decode_mak : decode 0xF107A004 = .form (.mak 8 7 4) := by decide
theorem test_decode_rot : decode 0xF128A808 = .form (.rot 9 8 8) := by decide
theorem test_decode_unknown :
    [(0x14200004 : Word), 0xF0001400, 0xF4009000, 0xF400FC00, 0x60000000, 0xFFFFFFFF].map decode =
      List.replicate 6 .unknownInstruction := by decide
/-- Part 5. -/
theorem test_decode_alternative_profile :
    decodeWith { params with opc := opcM88k } 0x14200004 = .form (.ldImm 1 0 4) := by decide
theorem test_encode_clears_ignored_bits : encode (.addReg 2 2 1) = 0xF4427001 := by decide
/-- The host's numbering of a word's bits is the spec's (30_encoding.md R60). -/
theorem test_decodeTableWord : decodeTableWord 32 0xF128A808 = some (.rot 9 8 8) := by decide
theorem test_decodeTableWord_refuses : decodeTableWord 32 0x04001234 = none := by decide

/-! ## One step of each instruction -/

/-- Part 1, S7. -/
theorem test_halt : (cycle 4 0x00000000 [] []).runState = .halted := by decide
theorem test_halt_pointers : ((cycle 4 0x00000000 [] []).ep, (cycle 4 0x00000000 [] []).fp) = (4, 8) := by decide
/-- L8. -/
theorem test_ldImm :
    (cycle 0x100 0x5C430005 [(3, 0x200)] [(0x80, 0xAAAAAAAA), (0x81, 0xBBBBBBBB)]).readReg 2 = 0xBBBBBBBB := by
  decide
/-- L18. -/
theorem test_ldImm_out_of_bounds :
    fatal (cycle 0x100 0x5C430004 [(3, 0x000FFFFC), (2, 0x99)] []) = (.faulted, 2, 0x00100000) := by decide
/-- L12. -/
theorem test_ldReg : (cycle 0x100 0xF4431403 [(3, 0x90)] [(0x48, 0x01010101)]).readReg 2 = 0x01010101 := by decide
/-- L3. -/
theorem test_ldReg_counts :
    (cycle 0x100 0xF4431404 [(3, 0x100), (4, 0x10)] [(0x44, 0xDEADBEEF)]).report =
      [1, 1, 0, 0, 0, 1, 0, 0, 1, 0] := by decide
/-- L13. -/
theorem test_ldScaled :
    (cycle 0x100 0xF4401604 [(4, 0x40000021)] [(0x21, 0x21212121)]).readReg 2 = 0x21212121 := by decide
/-- L14. -/
theorem test_ldScaled_directory :
    (cycle 0x100 0xF4431604 [(3, 0x110), (4, 0xFFFFFFFF)] [(0x43, 0x43434343)]).cacheSet 33 =
      { way0 := { valid := true, dirty := false, tag := 0 }, way1 := .empty, lastUsedWay := .way0 } := by decide
/-- L26. -/
theorem test_stImm :
    (cycle 0x100 0x24430002 [(2, 0xBEEF), (3, 0x200)] [(0x80, 0xFFFFFFFF)]).wordAt 0x200 = some 0xBEEF := by decide
/-- L27. -/
theorem test_stImm_directory :
    (cycle 0x100 0x24430000 [(2, 1), (3, 0x000FFFFC)] []).cacheSet 63 =
      { way0 := { valid := true, dirty := true, tag := 0x7FF }, way1 := .empty, lastUsedWay := .way0 } := by decide
/-- L22. -/
theorem test_stReg :
    (cycle 0x100 0xF4432404 [(2, 7), (3, 0x100), (4, 0x10)] []).wordAt 0x110 = some 7 := by decide
/-- L29. -/
theorem test_stReg_out_of_bounds :
    fatal (cycle 0x100 0xF4432404 [(2, 1), (3, 0xFFFFFFFF), (4, 0xFFFFFFFF)] []) =
      (.faulted, 2, 0xFFFFFFFE) := by decide
/-- L23. -/
theorem test_stScaled : (cycle 0x100 0xF4C52606 [(5, 0x200), (6, 3)] []).wordAt 0x20C = some 3 := by decide
theorem test_stScaled_counts :
    (cycle 0x100 0xF4C52606 [(5, 0x200), (6, 3)] []).report = [1, 0, 1, 0, 0, 0, 1, 0, 1, 0] := by decide
/-- L34. -/
theorem test_ldaImm : (cycle 0x100 0x34430001 [(3, 0xFFFFFFFF), (2, 0x77)] []).readReg 2 = 0 := by decide
/-- L33 (D4). -/
theorem test_ldaImm_zero_extends : (cycle 0x100 0x3443FFFF [(3, 1)] []).readReg 2 = 0x00010000 := by decide
/-- L31. -/
theorem test_ldaReg : (cycle 0x100 0xF5C53406 [(5, 0x200), (6, 3)] []).readReg 14 = 0x203 := by decide
/-- L37. -/
theorem test_ldaReg_r0 : (cycle 0x100 0xF4053406 [(5, 0x200), (6, 3)] []).readReg 0 = 0 := by decide
/-- L38. -/
theorem test_ldaScaled : (cycle 0x100 0xF4843604 [(4, 5)] []).readReg 4 = 0x19 := by decide
/-- L36. -/
theorem test_ldaScaled_wraps : (cycle 0x100 0xF4403604 [(4, 0xC0000001)] []).readReg 2 = 4 := by decide
/-- A7. -/
theorem test_addImm_wraps : (cycle 0x100 0x70210001 [(1, 0xFFFFFFFF)] []).readReg 1 = 0 := by decide
/-- A4 (D4). -/
theorem test_addImm_zero_extends : (cycle 0x100 0x70208000 [] []).readReg 1 = 0x8000 := by decide
/-- A11. -/
theorem test_addReg : (cycle 0x100 0xF4637003 [(3, 0x80000001)] []).readReg 3 = 2 := by decide
/-- A12. -/
theorem test_addReg_r0_source : (cycle 0x100 0xF4857000 [(5, 0x13579BDF), (4, 1)] []).readReg 4 = 0x13579BDF := by
  decide
/-- A17. -/
theorem test_subImm : (cycle 0x100 0x75600001 [] []).readReg 11 = 0xFFFFFFFF := by decide
/-- A20 (D4). -/
theorem test_subImm_zero_extends : (cycle 0x100 0x7422FFFF [] []).readReg 1 = 0xFFFF0001 := by decide
/-- A21. -/
theorem test_subReg : (cycle 0x100 0xF4617402 [(1, 3), (2, 5)] []).readReg 3 = 0xFFFFFFFE := by decide
/-- A26. -/
theorem test_subReg_wraps : (cycle 0x100 0xF4617402 [(1, 0x7FFFFFFF), (2, 0xFFFFFFFF)] []).readReg 3 = 0x80000000 := by
  decide
/-- B9. -/
theorem test_br : (cycle 0x100 0xC2000000 [] []).fp = 0xF8000100 := by decide
/-- B10. -/
theorem test_br_zero : fatal (cycle 0x28 0xC0000000 [] []) = (.faulted, 3, 0xC0000000) := by decide
/-- C6. -/
theorem test_bcnd : (cycle 0x00020000 0xE8E18000 [] []).fp = 0 := by decide
/-- C8. -/
theorem test_bcnd_zero : fatal (cycle 0x40 0xE8000000 [] []) = (.faulted, 3, 0xE8000000) := by decide
/-- 2.6, first block, n = 4. -/
theorem test_ext : (cycle 0x100 0xF0419004 [(1, 0x80000010)] []).readReg 2 = 0xF8000001 := by decide
/-- F9: the count is a literal, register 3 is not read. -/
theorem test_ext_literal : (cycle 0x100 0xF0419003 [(1, 0x100), (3, 8)] []).readReg 2 = 0x20 := by decide
/-- 2.6, first block, n = 31 and n = 4. -/
theorem test_extu : (cycle 0x100 0xF041981F [(1, 0x80000010)] []).readReg 2 = 1 := by decide
theorem test_extu_four : (cycle 0x100 0xF0419804 [(1, 0x80000010)] []).readReg 2 = 0x08000001 := by decide
/-- F6. -/
theorem test_mak : (cycle 0x100 0xF021A001 [(1, 0xC0000001)] []).readReg 1 = 0x80000002 := by decide
/-- 2.6, second block, n = 31. -/
theorem test_mak_out : (cycle 0x100 0xF041A01F [(1, 0x7FFFFFFF)] []).readReg 2 = 0x80000000 := by decide
/-- S5, the example after the table. -/
theorem test_rot : (cycle 0x100 0xF041A801 [(1, 0x80000002)] []).readReg 2 = 0x40000001 := by decide
/-- F5. -/
theorem test_rot_zero : (cycle 0x100 0xF128A800 [(8, 0x80000001), (9, 7)] []).readReg 9 = 0x80000001 := by decide

/-! ## The cycle, the directory, the host -/

/-- X1. -/
theorem test_unknown : fatal (cycle 0x40 0x04001234 [(1, 1)] []) = (.faulted, 1, 0x04001234) := by decide
/-- X7. -/
theorem test_fetch_out_of_bounds : fatal (after (machine 0x00100000 [] [])) = (.faulted, 2, 0x00100000) := by decide
theorem test_fetch_out_of_bounds_counts : (after (machine 0x00100000 [] [])).report = List.replicate 10 0 := by decide
/-- 2.5, the table of masks: columns 1, 0 and 0x80000000. -/
theorem test_bcnd_masks :
    [0, 1, 2, 3, 4, 5, 6, 7, 13, 12, 14, 26].map (fun m => [(1 : Word), 0, 0x80000000].map (conditionHolds m)) =
      [[false, false, false], [true, false, false], [false, true, false], [true, true, false],
        [false, false, true], [true, false, true], [false, true, true], [true, true, true],
        [true, false, true], [false, false, true], [false, true, true], [false, true, false]] := by decide
/-- T1, rows 1 to 6. -/
theorem test_directory_lru :
    (accesses [(0x1000, .read), (0x1200, .read), (0x1000, .read), (0x1400, .read), (0x1000, .read),
        (0x1200, .read)]).report = [0, 0, 0, 0, 0, 6, 0, 2, 4, 0] := by decide
/-- T2, rows 1 to 8. -/
theorem test_directory_write_backs :
    (accesses [(0x1000, .write), (0x1200, .write), (0x1000, .read), (0x1400, .read), (0x1200, .read),
        (0x1000, .write), (0x1600, .write), (0x1400, .read)]).report = [0, 0, 0, 0, 0, 4, 4, 1, 7, 3] := by decide
/-- T2, row 6. -/
theorem test_directory_set :
    (accesses [(0x1000, .write), (0x1200, .write), (0x1000, .read), (0x1400, .read), (0x1200, .read),
        (0x1000, .write)]).cacheSet 0 =
      { way0 := { valid := true, dirty := false, tag := 9 }, way1 := { valid := true, dirty := true, tag := 8 },
        lastUsedWay := .way1 } := by decide
/-- 45_cache_directory.md R161, R171: the line of address `0x000FFFF8` (T6). -/
theorem test_line_address : (CacheWay.installed 0x7FF).lineAddress 63 = 0x000FFFF8 := by decide
/-- S8. -/
theorem test_load_overflow : State.reset.launch (List.replicate 257 0) = .refused .loadOverflow := by
  rw [State.launch, List.length_replicate]
  rfl
theorem test_withFetchWord : (after (State.reset.withFetchWord 32 0x70200005)).readReg 1 = 5 := by decide
/-- The first step of the program of P1, launched. -/
theorem test_launch :
    (after (State.reset.applyReset.loadProgram [0x70200005, 0x70400000])).readReg 1 = 5 := by decide
/-- 00_scope.md R9: `halt` at once is a good end. -/
theorem test_completes : CompletesIn 1 (State.reset.loadProgram [0x00000000]) := ⟨_, rfl, rfl⟩

/-- Part 5 and D4: the machine under other parameters. `ld r1,r0,4` of OPC_M88K loads, the default's word is unknown
there, and `lda r2,r3,0xFFFF` with a sign-extended immediate gives 0 (note on L33). -/
def afterWith (p : Params) (s : State) : State :=
  match stepWith p s with
  | .next t => t
  | .fault r => nomatch r
  | .refused _ => s

theorem test_stepWith_alternative_profile :
    (afterWith { params with opc := opcM88k } (machine 0 [] [(0, 0x14200004), (1, 0x11223344)])).readReg 1 =
      0x11223344 := by decide
theorem test_stepWith_default_word_unknown :
    fatal (afterWith { params with opc := opcM88k } (machine 0 [] [(0, 0x5C200004)])) =
      (.faulted, 1, 0x5C200004) := by decide
theorem test_stepWith_sign_extension :
    (afterWith { params with imm16Ext := .sign } (machine 0x100 [(3, 1)] [(0x40, 0x3443FFFF)])).readReg 2 = 0 := by
  decide

/-! ## Witnesses: for each statement that has hypotheses, a state and operands that meet all of them -/

theorem witness_decodeInvertsEncode_identity :
    params.opc.Admissible ∧ (params.rot0 = .identity ∨ (Instr.br 0).wellFormedFor params.rot0 = true) := by decide
theorem witness_decodeInvertsEncode_fault :
    opcM88k.Admissible ∧ (Rot0.fault = .identity ∨ (Instr.rot 31 31 31).wellFormedFor .fault = true) := by decide
theorem witness_ignoredBits :
    decode 0 = .form .halt ∧
      (0x03FFFFFF : Word) &&& ~~~ Instr.halt.ignoredBits = (0 : Word) &&& ~~~ Instr.halt.ignoredBits := by decide
theorem witness_ignoredBits_addReg :
    decode 0xF4427201 = .form (.addReg 2 2 1) ∧
      (0xF44273E1 : Word) &&& ~~~ (Instr.addReg 2 2 1).ignoredBits =
        (0xF4427201 : Word) &&& ~~~ (Instr.addReg 2 2 1).ignoredBits := by decide
theorem witness_unknownWords :
    ((0x3F : Nat) ∉ [0x00, 0x09, 0x0D, 0x17, 0x1C, 0x1D, 0x30, 0x3A, 0x3C, 0x3D]) ∧
      (0xFC000000 : Word).toNat / 2 ^ 26 = 0x3F ∧ (0xF0000000 : Word).toNat / 2 ^ 26 = 0x3C ∧
      (0xF0000000 : Word).toNat / 2 ^ 10 % 2 ^ 6 = 0 ∧ (0xF400FC00 : Word).toNat / 2 ^ 26 = 0x3D ∧
      (0xF400FC00 : Word).toNat / 2 ^ 10 % 2 ^ 6 = 0x3F := by decide
theorem witness_profiles :
    (0x5C200004 : Word).toNat / 2 ^ 26 = 0x17 ∧ (0x14200004 : Word).toNat / 2 ^ 26 = 0x05 ∧
      (0x70220005 : Word).toNat / 2 ^ 26 = 0x1C := by decide

/-- The last word of memory holds `add r1,r0,5`. -/
def atTop : State := machine 0x000FFFFC [] [(0x3FFFF, 0x70200005)]

theorem witness_stepRuns :
    atTop.runState = .running ∧ atTop.wordAt atTop.fp = some 0x70200005 ∧
      decode 0x70200005 = .form (.addImm 1 0 5) := by decide

def atUnknown : State := machine 0x40 [(1, 1)] [(0x10, 0x04001234)]

theorem witness_unknownWordFaults :
    atUnknown.runState = .running ∧ atUnknown.wordAt atUnknown.fp = some 0x04001234 ∧
      decode 0x04001234 = .unknownInstruction := by decide
theorem witness_fetchOutOfBounds :
    (machine 0x00100000 [] []).runState = .running ∧ 0x000FFFFF < (machine 0x00100000 [] []).fp.toNat := by decide
theorem witness_endedRun_halted : (cycle 4 0x00000000 [] []).runState ≠ .running := by decide
theorem witness_endedRun_faulted : (after atUnknown).runState ≠ .running := by decide
/-- For the two statements about a step that ends in `Faulted`: an unknown word, a failed fetch, a zero
displacement and a store out of bounds. -/
theorem witness_fatalStep_unknown :
    atUnknown.runState = .running ∧ step atUnknown = .next (after atUnknown) ∧
      (after atUnknown).runState = .faulted := ⟨rfl, rfl, rfl⟩
theorem witness_fatalStep_fetch :
    ∃ t, (machine 0x00100000 [] []).runState = .running ∧ step (machine 0x00100000 [] []) = .next t ∧
      t.runState = .faulted := ⟨_, rfl, rfl, rfl⟩

def atZeroBranch : State := machine 0x40 [] [(0x10, 0xE8000000)]
def atStoreOut : State := machine 0x40 [(1, 0x00100000), (2, 5)] [(0x10, 0x24410000)]
def atHalt : State := machine 0x40 [] [(0x10, 0x00000000)]

theorem witness_fatalStep_branch :
    ∃ t, atZeroBranch.runState = .running ∧ step atZeroBranch = .next t ∧ t.runState = .faulted := ⟨_, rfl, rfl, rfl⟩
theorem witness_fatalStep_store :
    ∃ t, atStoreOut.runState = .running ∧ step atStoreOut = .next t ∧ t.runState = .faulted := ⟨_, rfl, rfl, rfl⟩
theorem witness_onlyHaltHalts :
    ∃ t, atHalt.runState = .running ∧ step atHalt = .next t ∧ t.runState = .halted := ⟨_, rfl, rfl, rfl⟩
theorem witness_onlyHaltHalts_other :
    ∃ t, atTop.runState = .running ∧ step atTop = .next t ∧ t.runState ≠ .halted := ⟨_, rfl, rfl, by decide⟩

/-- `br 1`, the least displacement; `bcnd gt0,r1,-1` with `x[1]` positive; the same with `x[1]` zero. -/
def atBranch : State := machine 0x28 [] [(0xA, 0xC0000001)]
def atTaken : State := machine 0x40 [(1, 1)] [(0x10, 0xE821FFFF)]
def atNotTaken : State := machine 0x40 [] [(0x10, 0xE821FFFF)]

theorem witness_pointers_br :
    ∃ t, atBranch.runState = .running ∧ atBranch.wordAt atBranch.fp = some 0xC0000001 ∧
      decode 0xC0000001 = .form (.br 1) ∧ step atBranch = .next t := ⟨_, rfl, by decide, by decide, rfl⟩
theorem witness_pointers_taken :
    ∃ t, atTaken.runState = .running ∧ atTaken.wordAt atTaken.fp = some 0xE821FFFF ∧
      decode 0xE821FFFF = .form (.bcnd 1 1 0xFFFF) ∧ conditionHolds 1 (atTaken.readReg 1) = true ∧
      step atTaken = .next t := ⟨_, rfl, by decide, by decide, by decide, rfl⟩
theorem witness_pointers_notTaken :
    ∃ t, atNotTaken.runState = .running ∧ atNotTaken.wordAt atNotTaken.fp = some 0xE821FFFF ∧
      conditionHolds 1 (atNotTaken.readReg 1) = false ∧ step atNotTaken = .next t :=
  ⟨_, rfl, by decide, by decide, rfl⟩
theorem witness_pointers_zero :
    ∃ t, atZeroBranch.runState = .running ∧ atZeroBranch.wordAt atZeroBranch.fp = some 0xE8000000 ∧
      decode 0xE8000000 = .form (.bcnd 0 0 0) ∧ step atZeroBranch = .next t := ⟨_, rfl, by decide, by decide, rfl⟩

/-- L24: `st r0,r3,0` over a word that is not zero. -/
def atStore : State := machine 0x100 [(3, 0x200)] [(0x40, 0x24030000), (0x80, 0xFFFFFFFF)]

theorem witness_onlyStoresChangeMemory :
    ∃ t, step atStore = .next t ∧ t.wordAt 0x200 ≠ atStore.wordAt 0x200 := ⟨_, rfl, by decide⟩
theorem witness_stepCounts_store :
    ∃ t, atStore.runState = .running ∧ atStore.wordAt atStore.fp = some 0x24030000 ∧
      decode 0x24030000 = .form (.stImm 0 3 0) ∧ step atStore = .next t ∧ t.runState ≠ .faulted :=
  ⟨_, rfl, by decide, by decide, rfl, by decide⟩
theorem witness_stepCounts_load :
    ∃ t, (machine 0 [] [(0, 0x5C200004), (1, 0)]).wordAt 0 = some 0x5C200004 ∧
      decode 0x5C200004 = .form (.ldImm 1 0 4) ∧
      step (machine 0 [] [(0, 0x5C200004), (1, 0)]) = .next t ∧ t.runState ≠ .faulted :=
  ⟨_, by decide, by decide, rfl, by decide⟩
theorem witness_stepCounts_branch :
    ∃ t, step atBranch = .next t ∧ t.runState ≠ .faulted ∧ (Instr.br 1).isBranch = true := ⟨_, rfl, by decide, rfl⟩
theorem witness_stepCounts_faulting :
    ∃ t, decode 0x24410000 = .form (.stImm 2 1 0) ∧ step atStoreOut = .next t ∧ t.runState = .faulted :=
  ⟨_, by decide, rfl, rfl⟩

/-- A store of `r1` just below the last word of memory, aimed at the last byte of that word; `r1` holds
`add r3,r0,0x55`, `r2` the address and `r4` that address over 4. -/
def atSelfModify (word : Word) : State :=
  machine 0x000FFFF8 [(1, 0x70600055), (2, 0x000FFFFF), (4, 0x0003FFFF)] [(0x3FFFE, word)]

theorem witness_storeIntoNextWord_imm :
    (atSelfModify 0x24220000).runState = .running ∧
      (atSelfModify 0x24220000).wordAt (atSelfModify 0x24220000).fp = some 0x24220000 ∧
      decode 0x24220000 = .form (.stImm 1 2 0) ∧ (Instr.stImm 1 2 0).isStore = true ∧
      ((atSelfModify 0x24220000).fp + 4).toNat ≤ 0x000FFFFF ∧
      widx ((atSelfModify 0x24220000).effectiveAddress 2 (.imm 0)) = widx ((atSelfModify 0x24220000).fp + 4) ∧
      decode ((atSelfModify 0x24220000).readReg 1) = .form (.addImm 3 0 0x55) := by decide
theorem witness_storeIntoNextWord_reg :
    decode 0xF4222400 = .form (.stReg 1 2 0) ∧ (Instr.stReg 1 2 0).isStore = true ∧
      (atSelfModify 0xF4222400).wordAt (atSelfModify 0xF4222400).fp = some 0xF4222400 ∧
      widx ((atSelfModify 0xF4222400).effectiveAddress 2 (.reg 0)) = widx ((atSelfModify 0xF4222400).fp + 4) := by
  decide
theorem witness_storeIntoNextWord_scaled :
    decode 0xF4202604 = .form (.stScaled 1 0 4) ∧ (Instr.stScaled 1 0 4).isStore = true ∧
      (atSelfModify 0xF4202604).wordAt (atSelfModify 0xF4202604).fp = some 0xF4202604 ∧
      widx ((atSelfModify 0xF4202604).effectiveAddress 0 (.scaled 4)) = widx ((atSelfModify 0xF4202604).fp + 4) := by
  decide

theorem witness_directoryNeverAffects :
    ∃ t t', SameArchitecture atTop (atTop.cacheAccess 0x1000 .write) ∧ step atTop = .next t ∧
      step (atTop.cacheAccess 0x1000 .write) = .next t' :=
  ⟨_, _, ⟨rfl, rfl, rfl, rfl, rfl, rfl, rfl⟩, rfl, rfl⟩

theorem witness_memoryCanonical : ∃ t, atStore.memoryCanonical ∧ step atStore = .next t :=
  ⟨_, by unfold State.memoryCanonical; decide, rfl⟩
theorem witness_pointersAligned :
    ∃ t, atTaken.pointersAligned ∧ atTaken.zeroSlotIsZero ∧ step atTaken = .next t :=
  ⟨_, by unfold State.pointersAligned; decide, by unfold State.zeroSlotIsZero; decide, rfl⟩
theorem witness_recordConsistent : ∃ t, atUnknown.recordConsistent ∧ step atUnknown = .next t :=
  ⟨_, by unfold State.recordConsistent; decide, rfl⟩

theorem empty_lawful : CacheSet.empty.Lawful where
  dirty_valid w := by cases w <;> decide
  tags_differ := by decide
  way0_first := by decide
  used_valid := by decide
  tag_in_bounds w := by cases w <;> decide

theorem reset_directoryLawful : State.reset.directoryLawful := by
  intro i
  have h : State.reset.cacheSet i = .empty := by simp [State.cacheSet, State.reset]
  rw [h]
  exact empty_lawful

theorem witness_directoryLawful :
    ∃ t, atStore.directoryLawful ∧ step atStore = .next t := ⟨_, reset_directoryLawful, rfl⟩
theorem witness_countersLawful : ∃ t, atStore.counters.Lawful ∧ step atStore = .next t :=
  ⟨_, by constructor <;> decide, rfl⟩
theorem witness_writeBacksCovered : ∃ t, atStore.writeBacksCovered ∧ step atStore = .next t :=
  ⟨_, by unfold State.writeBacksCovered; decide, rfl⟩
theorem witness_launch :
    atStore.memoryCanonical ∧ (List.replicate 256 (0 : Word)).length ≤ 256 ∧
      256 < (List.replicate 257 (0 : Word)).length := by
  rw [List.length_replicate, List.length_replicate]
  unfold State.memoryCanonical
  decide

/-- One line held, dirty, in way 0 of set 0. -/
def oneLine : State := State.reset.cacheAccess 0x1000 .write
/-- Two lines held in set 0, way 0 dirty and way 1 last used. -/
def twoLines : State := oneLine.cacheAccess 0x1200 .read

theorem witness_directoryHit_way0 :
    ((oneLine.cacheSet (setIndex 0x1000)).way .way0).valid = true ∧
      ((oneLine.cacheSet (setIndex 0x1000)).way .way0).tag = lineTag 0x1000 ∧ WayIdx.way0 ≠ .way1 := by decide
theorem witness_directoryHit_way1 :
    ((twoLines.cacheSet (setIndex 0x1200)).way .way1).valid = true ∧
      ((twoLines.cacheSet (setIndex 0x1200)).way .way1).tag = lineTag 0x1200 ∧
      ((twoLines.cacheSet (setIndex 0x1200)).way .way0).tag ≠ lineTag 0x1200 := by decide
theorem witness_directoryMiss_empty :
    ∀ w, ((State.reset.cacheSet (setIndex 0x1000)).way w).valid = true →
      ((State.reset.cacheSet (setIndex 0x1000)).way w).tag ≠ lineTag 0x1000 := by intro w; cases w <;> decide
theorem witness_directoryMiss_one :
    ∀ w, ((oneLine.cacheSet (setIndex 0x1200)).way w).valid = true →
      ((oneLine.cacheSet (setIndex 0x1200)).way w).tag ≠ lineTag 0x1200 := by intro w; cases w <;> decide
theorem witness_directoryMiss_two :
    ∀ w, ((twoLines.cacheSet (setIndex 0x1400)).way w).valid = true →
      ((twoLines.cacheSet (setIndex 0x1400)).way w).tag ≠ lineTag 0x1400 := by intro w; cases w <;> decide
theorem witness_directoryMiss_dirtyVictim :
    twoLines.accessResult 0x1400 .read = .missWithWriteBack ∧ oneLine.accessResult 0x1200 .read = .miss := by decide
theorem witness_readHit :
    oneLine.accessResult 0x1000 .read = .hit ∧ oneLine.accessResult 0x1200 .read ≠ .hit := by decide
theorem witness_otherSet : (1 : SetIdx).toNat ≠ (0x1000 : Word).toNat / 8 % 64 := by decide
theorem witness_sameLine : (0x1000 : Word).toNat / 8 = (0x1007 : Word).toNat / 8 := by decide
theorem witness_leastRecentlyUsed :
    State.reset.directoryLawful ∧ setIndex 0x1200 = setIndex 0x1000 ∧ setIndex 0x1400 = setIndex 0x1000 ∧
      lineTag 0x1000 ≠ lineTag 0x1200 ∧ lineTag 0x1000 ≠ lineTag 0x1400 ∧ lineTag 0x1200 ≠ lineTag 0x1400 :=
  ⟨reset_directoryLawful, by decide, by decide, by decide, by decide, by decide⟩

/-- `x[3]` is the last byte address of memory, `x[4]` the last over 4, `x[5]` the first address outside and
`x[6]` that over 4. -/
def bounds : State := machine 0 [(3, 0x000FFFFF), (4, 0x0003FFFF), (5, 0x00100000), (6, 0x00040000)] []

/-- For the six statements of the loads and stores: an address in bounds, at the boundary, in each mode. -/
theorem witness_inBounds_imm : (bounds.effectiveAddress 3 (.imm 0)).toNat ≤ 0x000FFFFF := by decide
theorem witness_inBounds_reg : (bounds.effectiveAddress 3 (.reg 0)).toNat ≤ 0x000FFFFF := by decide
theorem witness_inBounds_scaled : (bounds.effectiveAddress 0 (.scaled 4)).toNat ≤ 0x000FFFFF := by decide
/-- For the statement about addresses out of bounds, in each mode. -/
theorem witness_outOfBounds :
    0x000FFFFF < (bounds.effectiveAddress 3 (.imm 1)).toNat ∧ 0x000FFFFF < (bounds.effectiveAddress 5 (.reg 0)).toNat ∧
      0x000FFFFF < (bounds.effectiveAddress 0 (.scaled 6)).toNat := by decide
theorem witness_displacements :
    (1 : Disp26) ≠ 0 ∧ (0x3FFFFFF : Disp26) ≠ 0 ∧ (0xFFFF : Disp16) ≠ 0 := by decide
theorem witness_zeroDisplacement :
    atZeroBranch.runState = .running ∧ atZeroBranch.wordAt atZeroBranch.fp = some 0xE8000000 ∧
      (0xE8000000 : Word).toNat / 2 ^ 26 = 0x3A ∧ (0xE8000000 : Word).toNat % 2 ^ 16 = 0 := by decide
theorem witness_zeroDisplacement_br :
    (machine 0x28 [] [(0xA, 0xC0000000)]).runState = .running ∧
      (machine 0x28 [] [(0xA, 0xC0000000)]).wordAt 0x28 = some 0xC0000000 ∧
      (0xC0000000 : Word).toNat / 2 ^ 26 = 0x30 ∧ (0xC0000000 : Word).toNat % 2 ^ 26 = 0 := by decide
theorem witness_misaligned :
    (0x000FFFFF : Word).toNat / 4 = (0x000FFFFC : Word).toNat / 4 ∧ (0x000FFFFF : Word).toNat ≤ 0x000FFFFF ∧
      0x000FFFFF < (0x00100000 : Word).toNat := by decide
theorem witness_maskBits : (13 : CondMask).toNat % 8 = (5 : CondMask).toNat % 8 := by decide
theorem witness_rotate :
    ((1 : ShiftCount).toNat + (31 : ShiftCount).toNat) % 32 = 0 ∧
      ((0 : ShiftCount).toNat + (0 : ShiftCount).toNat) % 32 = 0 ∧ (1 : RegIdx) ≠ 0 := by decide

end Sys2Proof.Tests
end

section
/-! What one instruction does, by its kind, and what one step does to each piece of the state. The invariants of the
machine (10_state.md) are read off these lemmas. -/

namespace Sys2Proof.Machine

/-! ## What an instruction does, by its kind -/

/-- What instruction `i` makes of `s`, by the kind of `i`; `exec_effect` ties it to `exec`. -/
inductive Effect (s : State) : Instr → State → Prop where
  | halted : Effect s .halt s.halt
  | loaded {i : Instr} {d s1 : RegIdx} {b : OperandB} (load : i.isLoad = true) (store : i.isStore = false)
      (branch : i.isBranch = false) (access : i.dataAccess = some (d, s1, b))
      (bounds : inBounds (s.effectiveAddress s1 b)) :
      Effect s i ((({ s with counters := s.counters.countMemRead } : State).writeReg d
        (s.mem.word (widx (s.effectiveAddress s1 b)))).cacheAccess (s.effectiveAddress s1 b) .read)
  | stored {i : Instr} {d s1 : RegIdx} {b : OperandB} (load : i.isLoad = false) (store : i.isStore = true)
      (branch : i.isBranch = false) (access : i.dataAccess = some (d, s1, b))
      (bounds : inBounds (s.effectiveAddress s1 b)) :
      Effect s i (({ s.setWord (s.effectiveAddress s1 b) (s.readReg d) with
        counters := s.counters.countMemWrite } : State).cacheAccess (s.effectiveAddress s1 b) .write)
  | accessFault {i : Instr} {d s1 : RegIdx} {b : OperandB} (branch : i.isBranch = false)
      (access : i.dataAccess = some (d, s1, b)) (bounds : ¬ inBounds (s.effectiveAddress s1 b)) :
      Effect s i (s.raise .outOfBoundsAccess (s.effectiveAddress s1 b))
  | computed {i : Instr} (d : RegIdx) (v : Word) (load : i.isLoad = false) (store : i.isStore = false)
      (branch : i.isBranch = false) : Effect s i (s.writeReg d v)
  | branched {i : Instr} (taken : Bool) (off : Word) (load : i.isLoad = false) (store : i.isStore = false)
      (branch : i.isBranch = true) (aligned : off.toNat % 4 = 0) :
      Effect s i (s.branch taken (s.branchTarget off))
  | branchFault {i : Instr} (branch : i.isBranch = true) (illFormed : i.wellFormed = false) :
      Effect s i (s.raise .invalidBranchEncoding (encode i))

theorem Effect.of_load (s : State) {i : Instr} {d s1 : RegIdx} {b : OperandB} (load : i.isLoad = true)
    (store : i.isStore = false) (branch : i.isBranch = false) (access : i.dataAccess = some (d, s1, b)) :
    Effect s i (s.load d (s.effectiveAddress s1 b)) := by
  rcases s.load_cases d (s.effectiveAddress s1 b) with ⟨hin, hload⟩ | ⟨hout, hload⟩
  · exact hload ▸ .loaded load store branch access hin
  · exact hload ▸ .accessFault branch access hout

theorem Effect.of_storeTo (s : State) {i : Instr} {d s1 : RegIdx} {b : OperandB} (load : i.isLoad = false)
    (store : i.isStore = true) (branch : i.isBranch = false) (access : i.dataAccess = some (d, s1, b)) :
    Effect s i (s.storeTo d (s.effectiveAddress s1 b)) := by
  rcases s.storeTo_cases d (s.effectiveAddress s1 b) with ⟨hin, hstore⟩ | ⟨hout, hstore⟩
  · exact hstore ▸ .stored load store branch access hin
  · exact hstore ▸ .accessFault branch access hout

/-- A displacement shifted left by 2 is a multiple of 4. -/
theorem shiftLeft_two_aligned (v : Word) : (v <<< 2).toNat % 4 = 0 := by
  rw [BitVec.toNat_shiftLeft, Nat.shiftLeft_eq]
  omega

/-- Every instruction has a next state, and it is the one its kind says. -/
theorem exec_effect (s : State) : ∀ i : Instr, ∃ t, exec i s = .next t ∧ Effect s i t
  | .halt => ⟨_, rfl, .halted⟩
  | .ldImm .. | .ldReg .. | .ldScaled .. => ⟨_, rfl, .of_load s rfl rfl rfl rfl⟩
  | .stImm .. | .stReg .. | .stScaled .. => ⟨_, rfl, .of_storeTo s rfl rfl rfl rfl⟩
  | .ldaImm .. | .ldaReg .. | .ldaScaled .. | .addImm .. | .addReg .. | .subImm .. | .subReg ..
  | .ext .. | .extu .. | .mak .. | .rot .. => ⟨_, rfl, .computed _ _ rfl rfl rfl⟩
  | .br disp => by
    refine ⟨_, execBr_eq disp s, ?_⟩
    split
    · next h => exact .branchFault rfl (by simp [Instr.wellFormed, Instr.wellFormedFor, h])
    · exact .branched _ _ rfl rfl rfl (shiftLeft_two_aligned _)
  | .bcnd mask s1 disp => by
    refine ⟨_, execBcnd_eq mask s1 disp s, ?_⟩
    split
    · next h => exact .branchFault rfl (by simp [Instr.wellFormed, Instr.wellFormedFor, h])
    · exact .branched _ _ rfl rfl rfl (shiftLeft_two_aligned _)

theorem effect_of_exec {i : Instr} {s t : State} (h : exec i s = .next t) : Effect s i t := by
  obtain ⟨t', ht', heff⟩ := exec_effect s i
  cases ht'.symm.trans h
  exact heff

/-! ## The step, by the run state -/

theorem step_of_ended {s : State} (h : s.runState ≠ .running) : step s = .next s := by
  unfold step runCycle
  split
  · contradiction
  · rfl
  · rfl

/-- A running step on the word of an instruction is that instruction, run after the fetch. -/
theorem step_of_form {s : State} {iw : Word} {i : Instr} (hrun : s.runState = .running)
    (hword : s.wordAt s.fp = some iw) (hdec : decode iw = .form i) : step s = exec i s.afterFetch := by
  simp only [step, runCycle, hrun, State.fetch, hword, hdec]

theorem effect_of_step {s t : State} {iw : Word} {i : Instr} (hrun : s.runState = .running)
    (hword : s.wordAt s.fp = some iw) (hdec : decode iw = .form i) (h : step s = .next t) :
    Effect s.afterFetch i t :=
  effect_of_exec ((step_of_form hrun hword hdec).symm.trans h)

/-- The machine has a next step in every state (70_reset_and_hazards.md R223). -/
theorem step_total (s : State) : ∃ t, step s = .next t := by
  by_cases hrun : s.runState = .running
  · cases hword : s.wordAt s.fp with
    | none => exact ⟨_, by simp only [step, runCycle, hrun, State.fetch, hword]; rfl⟩
    | some iw =>
      cases hdec : decode iw with
      | unknownInstruction => exact ⟨_, by simp only [step, runCycle, hrun, State.fetch, hword, hdec]; rfl⟩
      | form i =>
        obtain ⟨t, ht, -⟩ := exec_effect s.afterFetch i
        exact ⟨t, (step_of_form hrun hword hdec).trans ht⟩
  · exact ⟨s, step_of_ended hrun⟩

/-! ## What a step does to the counters -/

/-- Everything one step can do to the counters: nothing; count a fetch; and with the fetch a data access and its
directory access, or a branch. -/
inductive Counters.StepsTo (c : Counters) : Counters → Prop where
  | same : c.StepsTo c
  | fetch : c.StepsTo c.countFetch
  | read (r : AccessResult) : c.StepsTo (c.countFetch.countMemRead.countAccess .read r)
  | write (r : AccessResult) : c.StepsTo (c.countFetch.countMemWrite.countAccess .write r)
  | branch (taken : Bool) : c.StepsTo (c.countFetch.countBranch taken)

theorem step_counters {s t : State} (h : step s = .next t) : s.counters.StepsTo t.counters := by
  rcases step_cases h with ⟨-, rfl⟩ | ⟨-, -, rfl⟩ | ⟨iw, -, -, -, rfl⟩ | ⟨iw, i, -, -, -, hexec⟩
  · exact .same
  · exact .same
  · exact .fetch
  · cases effect_of_exec hexec with
    | halted => exact .fetch
    | loaded => exact .read _
    | stored => exact .write _
    | accessFault => exact .fetch
    | computed => exact .fetch
    | branched taken => exact .branch taken
    | branchFault => exact .fetch

/-- An access is a hit or a miss. -/
theorem Counters.countAccess_hits_add_misses (c : Counters) (k : AccessKind) (r : AccessResult) :
    (c.countAccess k r).hits + (c.countAccess k r).misses = c.hits + c.misses + 1 := by
  cases r <;> simp only [Counters.countAccess, reduceCtorEq, if_true, if_false] <;> omega

/-- A write-back is counted with a miss of its own. -/
theorem Counters.countAccess_writeBacks_le {c : Counters} (h : c.writeBacks ≤ c.misses) (k : AccessKind)
    (r : AccessResult) : (c.countAccess k r).writeBacks ≤ (c.countAccess k r).misses := by
  cases r <;> simp only [Counters.countAccess, reduceCtorEq, if_true, if_false] <;> omega

/-- The fetch counted first makes room for the data access counted after it. -/
theorem Counters.StepsTo.lawful {c c' : Counters} (h : c.StepsTo c') (hc : c.Lawful) : c'.Lawful := by
  obtain ⟨hitsMisses, writeBacks, taken, reads, writes, accesses⟩ := hc
  cases h with
  | same => exact ⟨hitsMisses, writeBacks, taken, reads, writes, accesses⟩
  | fetch => exact ⟨hitsMisses, writeBacks, taken, reads, writes, Nat.le_succ_of_le accesses⟩
  | read r =>
    refine ⟨?_, Counters.countAccess_writeBacks_le writeBacks .read r, taken, congrArg (· + 1) reads, writes, ?_⟩
    · rw [Counters.countAccess_hits_add_misses]
      simp only [Counters.countAccess, Counters.countMemRead, Counters.countFetch, reduceCtorEq, if_true, if_false]
      omega
    · simp only [Counters.countAccess, Counters.countMemRead, Counters.countFetch]
      omega
  | write r =>
    refine ⟨?_, Counters.countAccess_writeBacks_le writeBacks .write r, taken, reads, congrArg (· + 1) writes, ?_⟩
    · rw [Counters.countAccess_hits_add_misses]
      simp only [Counters.countAccess, Counters.countMemWrite, Counters.countFetch, reduceCtorEq, if_true, if_false]
      omega
    · simp only [Counters.countAccess, Counters.countMemWrite, Counters.countFetch]
      omega
  | branch b =>
    refine ⟨hitsMisses, writeBacks, ?_, reads, writes, Nat.le_succ_of_le accesses⟩
    cases b
    · exact Nat.le_succ_of_le taken
    · exact Nat.succ_le_succ taken

/-- No counter falls, and none rises by more than 1. -/
theorem Counters.StepsTo.report_grows {s t : State} (h : s.counters.StepsTo t.counters) :
    List.Forall₂ (fun before after => before ≤ after ∧ after ≤ before + 1) s.report t.report := by
  simp only [State.report, List.forall₂_cons, List.Forall₂.nil, and_true]
  generalize t.counters = c' at h
  cases h with
  | same => simp
  | fetch => simp [Counters.countFetch]
  | read r => cases r <;> simp [Counters.countFetch, Counters.countMemRead, Counters.countAccess]
  | write r => cases r <;> simp [Counters.countFetch, Counters.countMemWrite, Counters.countAccess]
  | branch taken => cases taken <;> simp [Counters.countFetch, Counters.countBranch]

/-! ## What a step does to memory -/

/-- Memory stays as it is, but for a store that is in bounds. -/
theorem step_mem {s t : State} (h : step s = .next t) :
    t.mem = s.mem ∨
    ∃ iw i d s1 b, s.wordAt s.fp = some iw ∧ decode iw = .form i ∧ i.isStore = true ∧
      i.dataAccess = some (d, s1, b) ∧ inBounds (s.effectiveAddress s1 b) ∧
      t.mem = s.mem.store (widx (s.effectiveAddress s1 b)) (s.readReg d) := by
  rcases step_cases h with ⟨-, rfl⟩ | ⟨-, -, rfl⟩ | ⟨iw, -, -, -, rfl⟩ | ⟨iw, i, -, hword, hdec, hexec⟩
  · exact .inl rfl
  · exact .inl rfl
  · exact .inl rfl
  · cases effect_of_exec hexec with
    | stored _ store _ access bounds =>
      rw [State.effectiveAddress_afterFetch] at bounds ⊢
      exact .inr ⟨iw, i, _, _, _, hword, hdec, store, access, bounds, rfl⟩
    | halted => exact .inl rfl
    | loaded => exact .inl rfl
    | accessFault => exact .inl rfl
    | computed => exact .inl rfl
    | branched => exact .inl rfl
    | branchFault => exact .inl rfl

/-! ## What an instruction does to the pointers and to slot 0 -/

/-- Only a branch moves the fetch pointer, and nothing moves the execute pointer. -/
theorem exec_pointers_of_not_branch {i : Instr} {s t : State} (hi : i.isBranch = false) (h : exec i s = .next t) :
    t.ep = s.ep ∧ t.fp = s.fp := by
  cases effect_of_exec h with
  | halted => exact ⟨rfl, rfl⟩
  | loaded => exact ⟨rfl, rfl⟩
  | stored => exact ⟨rfl, rfl⟩
  | accessFault => exact ⟨rfl, rfl⟩
  | computed => exact ⟨rfl, rfl⟩
  | branched _ _ _ _ branch => cases hi.symm.trans branch
  | branchFault branch => cases hi.symm.trans branch

theorem State.branchTarget_brOffset (s : State) (disp : Disp26) :
    s.branchTarget (brOffset disp) = BitVec.ofInt 32 (s.ep.toNat + 4 * disp.toInt) :=
  add_displacement (by decide) s.ep disp

theorem State.branchTarget_bcndOffset (s : State) (disp : Disp16) :
    s.branchTarget (bcndOffset disp) = BitVec.ofInt 32 (s.ep.toNat + 4 * disp.toInt) :=
  add_displacement (by decide) s.ep disp

theorem exec_br_pointers {disp : Disp26} {s t : State} (h : exec (.br disp) s = .next t) :
    t.ep = s.ep ∧ t.fp = if disp = 0 then s.fp else BitVec.ofInt 32 (s.ep.toNat + 4 * disp.toInt) := by
  cases (execBr_eq disp s).symm.trans h
  by_cases hz : disp = 0
  · rw [if_pos hz, if_pos hz]
    exact ⟨rfl, rfl⟩
  · rw [if_neg hz, if_neg hz]
    exact ⟨rfl, s.branchTarget_brOffset disp⟩

theorem exec_bcnd_pointers {mask : CondMask} {s1 : RegIdx} {disp : Disp16} {s t : State}
    (h : exec (.bcnd mask s1 disp) s = .next t) :
    t.ep = s.ep ∧ t.fp = if disp = 0 ∨ conditionHolds mask (s.readReg s1) = false then s.fp
      else BitVec.ofInt 32 (s.ep.toNat + 4 * disp.toInt) := by
  cases (execBcnd_eq mask s1 disp s).symm.trans h
  by_cases hz : disp = 0
  · rw [if_pos hz, if_pos (.inl hz)]
    exact ⟨rfl, rfl⟩
  · rw [if_neg hz]
    cases conditionHolds mask (s.readReg s1) with
    | false => exact ⟨rfl, (if_pos (.inr rfl)).symm⟩
    | true =>
      rw [if_neg (by simpa using hz)]
      exact ⟨rfl, s.branchTarget_bcndOffset disp⟩

theorem add_aligned {a b : Word} (ha : a.toNat % 4 = 0) (hb : b.toNat % 4 = 0) : (a + b).toNat % 4 = 0 := by
  rw [BitVec.toNat_add]
  omega

theorem State.pointersAligned_afterFetch {s : State} (h : s.pointersAligned) : s.afterFetch.pointersAligned :=
  ⟨add_aligned h.1 (by decide), h.1⟩

theorem exec_pointersAligned {i : Instr} {s t : State} (hs : s.pointersAligned) (h : exec i s = .next t) :
    t.pointersAligned := by
  cases effect_of_exec h with
  | branched taken off _ _ _ aligned =>
    obtain ⟨hfp, hep⟩ := hs
    cases taken
    · exact ⟨hfp, hep⟩
    · exact ⟨add_aligned hep aligned, hep⟩
  | halted => exact hs
  | loaded => exact hs
  | stored => exact hs
  | accessFault => exact hs
  | computed => exact hs
  | branchFault => exact hs

/-- The zero gate: a register write never reaches slot 0 (10_state.md R12). -/
theorem State.writeReg_slot_zero (s : State) (d : RegIdx) (v : Word) : (s.writeReg d v).regs[0] = s.regs[0] := by
  unfold State.writeReg
  by_cases hd : d = 0
  · rw [if_pos hd]
  · have hne : d.toNat ≠ 0 := fun h => hd (BitVec.eq_of_toNat_eq h)
    rw [if_neg hd, Vector.getElem_set_ne _ _ hne]

theorem exec_slot_zero {i : Instr} {s t : State} (h : exec i s = .next t) : t.regs[0] = s.regs[0] := by
  cases effect_of_exec h with
  | loaded => exact State.writeReg_slot_zero ..
  | computed d v => exact State.writeReg_slot_zero s d v
  | halted => rfl
  | stored => rfl
  | accessFault => rfl
  | branched => rfl
  | branchFault => rfl

/-! ## What raises leave in the fault record -/

/-- A fatal condition with a cause of its own leaves a consistent record. -/
theorem State.recordConsistent_raise (s : State) {c : FaultCause} (hc : c ≠ .none) (x : Word) :
    (s.raise c x).recordConsistent :=
  ⟨⟨fun h => absurd h hc, fun h => absurd rfl h⟩, fun h => absurd h hc⟩

/-- An instruction that starts in `Running` raises a condition or leaves the record alone and does not fault. -/
theorem exec_record {i : Instr} {s t : State} (hrun : s.runState = .running) (h : exec i s = .next t) :
    (∃ c x, c ≠ .none ∧ t = s.raise c x) ∨
    (t.runState ≠ .faulted ∧ t.faultCause = s.faultCause ∧ t.faultInfo = s.faultInfo) := by
  have running_ne : s.runState ≠ .faulted := by rw [hrun]; decide
  cases effect_of_exec h with
  | halted => exact .inr ⟨nofun, rfl, rfl⟩
  | loaded => exact .inr ⟨running_ne, rfl, rfl⟩
  | stored => exact .inr ⟨running_ne, rfl, rfl⟩
  | accessFault => exact .inl ⟨_, _, by decide, rfl⟩
  | computed => exact .inr ⟨running_ne, rfl, rfl⟩
  | branched => exact .inr ⟨running_ne, rfl, rfl⟩
  | branchFault => exact .inl ⟨_, _, by decide, rfl⟩

/-! ## The state right after reset -/

@[simp] theorem State.readReg_reset (r : RegIdx) : State.reset.readReg r = 0 := by
  simp [State.readReg, State.reset]

@[simp] theorem State.cacheSet_reset (i : SetIdx) : State.reset.cacheSet i = .empty := by
  simp [State.cacheSet, State.reset]

@[simp] theorem CacheSet.empty_way (w : WayIdx) : CacheSet.empty.way w = .empty := by cases w <;> rfl

/-- Memory lists no word at reset, so every word is `MEM0`'s (10_state.md R36). -/
theorem State.wordAt_reset {a : Word} (h : a.toNat ≤ 0x000FFFFF) :
    State.reset.wordAt a = some (Config.mem0 (a.toNat / 4)) := by
  rw [State.wordAt_of_inBounds ((inBounds_iff a).2 h), widx_eq]
  rfl

/-- A set that holds no line and no dirty bit obeys the laws. -/
theorem CacheSet.lawful_of_invalid {c : CacheSet} (hv : ∀ w, (c.way w).valid = false)
    (hd : ∀ w, (c.way w).dirty = false) : c.Lawful where
  dirty_valid w h := by cases (hd w).symm.trans h
  tags_differ h := by cases (hv .way0).symm.trans h
  way0_first h := by cases (hv .way1).symm.trans h
  used_valid h := by cases (hv .way0).symm.trans h
  tag_in_bounds w h := by cases (hv w).symm.trans h

theorem State.dirtyLines_reset : State.reset.dirtyLines = 0 := by
  simp [State.dirtyLines, State.reset, CacheSet.dirtyCount, CacheSet.empty, CacheWay.empty]

theorem Counters.lawful_zero : Counters.zero.Lawful := by constructor <;> decide

end Sys2Proof.Machine
end

section
/-! The statements of 10_state.md, each from the lemmas on what one step does to its piece of the state. -/

namespace Sys2Proof.Machine

/-- Settles O24: what a step does to the counters keeps their laws. -/
theorem stepKeepsCountersLawful : Obligations.StepKeepsCountersLawful :=
  fun _ _ hs h => (step_counters h).lawful hs

/-- Settles O10, by induction on the number of steps. -/
theorem endedRunIsFrozen : Obligations.EndedRunIsFrozen := by
  intro k s hended
  induction k with
  | zero => rfl
  | succ k ih => exact (core_run_of_next (step_of_ended hended) k).trans ih

/-- Settles O14: a branch by its own equation, every other form by leaving the pointers where the fetch put them. -/
theorem pointersMoveByFetchAndTakenBranchOnly : Obligations.PointersMoveByFetchAndTakenBranchOnly := by
  intro s t iw i hrun hword hdec h
  rw [step_of_form hrun hword hdec] at h
  cases i with
  | br disp => exact exec_br_pointers h
  | bcnd mask s1 disp => exact exec_bcnd_pointers h
  | _ => exact exec_pointers_of_not_branch rfl h

/-- Settles O15: memory changes by a store only, and a store changes no other word. -/
theorem onlyStoresChangeMemory : Obligations.OnlyStoresChangeMemory := by
  intro s t a h hne
  rcases step_mem h with hmem | ⟨iw, i, d, s1, b, hword, hdec, hstore, haccess, hin, hmem⟩
  · exact absurd (State.wordAt_congr hmem a) hne
  · have ht : t.wordAt a = (s.setWord (s.effectiveAddress s1 b) (s.readReg d)).wordAt a :=
      State.wordAt_congr hmem a
    have hsame : widx a = widx (s.effectiveAddress s1 b) := by
      by_contra hother
      exact hne (ht.trans (State.wordAt_setWord_of_ne s _ hother))
    exact ⟨iw, i, d, s1, b, hword, hdec, hstore, haccess, hsame.symm,
      ht.trans (State.wordAt_setWord_self s _ hin hsame)⟩

/-- Settles O16: the fetch is counted before the instruction runs, and the instruction counts by its kind. -/
theorem stepCountsItsEvents : Obligations.StepCountsItsEvents := by
  intro s t iw i hrun hword hdec h
  cases effect_of_step hrun hword hdec h with
  | halted => simp [Counters.countFetch, Instr.isLoad, Instr.isStore, Instr.isBranch]
  | loaded load store branch =>
    simp [Counters.countFetch, Counters.countMemRead, Counters.countAccess, hrun, load, store, branch]
  | stored load store branch =>
    simp [Counters.countFetch, Counters.countMemWrite, Counters.countAccess, hrun, load, store, branch]
  | accessFault => simp [Counters.countFetch]
  | computed d v load store branch => simp [Counters.countFetch, load, store, branch]
  | branched taken off load store branch =>
    simp [Counters.countFetch, Counters.countBranch, hrun, load, store, branch]
  | branchFault => simp [Counters.countFetch]

/-- Settles O17: every instruction has a next state, and a step counts each event at most once. -/
theorem nextStepExistsAndCountersOnlyGrow : Obligations.NextStepExistsAndCountersOnlyGrow := by
  intro s
  obtain ⟨t, h⟩ := step_total s
  exact ⟨t, h, (step_counters h).report_grows⟩

/-- Settles O20: the one change of memory is a store in bounds. -/
theorem stepKeepsMemoryCanonical : Obligations.StepKeepsMemoryCanonical := by
  intro s t hs h
  rcases step_mem h with hmem | ⟨iw, i, d, s1, b, -, -, -, -, hin, hmem⟩
  · exact (congrArg Memory.wf hmem).trans hs
  · exact (congrArg Memory.wf hmem).trans (Memory.wf_store hs hin _)

/-- Settles O21: the fetch adds 4, a branch target is the instruction's address plus a multiple of 4, and the zero
gate shuts slot 0. -/
theorem stepKeepsPointersAlignedAndZeroSlot : Obligations.StepKeepsPointersAlignedAndZeroSlot := by
  intro s t hp hz h
  rcases step_cases h with ⟨-, rfl⟩ | ⟨-, -, rfl⟩ | ⟨iw, -, -, -, rfl⟩ | ⟨iw, i, -, -, -, hexec⟩
  · exact ⟨hp, hz⟩
  · exact ⟨hp, hz⟩
  · exact ⟨State.pointersAligned_afterFetch hp, hz⟩
  · exact ⟨exec_pointersAligned (State.pointersAligned_afterFetch hp) hexec, (exec_slot_zero hexec).trans hz⟩

/-- Settles O22: a fatal condition has a cause of its own, and every other step from `Running` leaves the record. -/
theorem stepKeepsRecordConsistent : Obligations.StepKeepsRecordConsistent := by
  intro s t hs h
  rcases step_cases h with ⟨-, rfl⟩ | ⟨-, -, rfl⟩ | ⟨iw, -, -, -, rfl⟩ | ⟨iw, i, hrun, -, -, hexec⟩
  · exact hs
  · exact State.recordConsistent_raise _ (by decide) _
  · exact State.recordConsistent_raise _ (by decide) _
  · rcases exec_record (s := s.afterFetch) hrun hexec with ⟨c, x, hc, rfl⟩ | ⟨hnot, hcause, hinfo⟩
    · exact State.recordConsistent_raise _ hc x
    · have hnone : s.faultCause = .none := hs.1.2 (by rw [hrun]; decide)
      exact ⟨⟨fun _ => hnot, fun _ => hcause.trans hnone⟩, fun _ => hinfo.trans (hs.2 hnone)⟩

/-- Settles O26: registers, directory and memory by their reset lemmas, the rest as `State.reset` writes it. -/
theorem resetLeavesTheStatedValues : Obligations.ResetLeavesTheStatedValues := by
  refine ⟨State.readReg_reset, rfl, rfl, rfl, rfl, rfl, by decide, fun i w => ?_, fun i => ?_,
    fun a => State.wordAt_reset⟩
  · rw [State.cacheSet_reset, CacheSet.empty_way]
    exact ⟨rfl, rfl, rfl⟩
  · rw [State.cacheSet_reset]
    rfl

/-- Settles O27: at reset no line is held and every counter is zero. -/
theorem resetMeetsTheInvariants : Obligations.ResetMeetsTheInvariants where
  memory := rfl
  zeroSlot := State.readReg_reset 0
  pointers := ⟨rfl, rfl⟩
  record := by unfold State.recordConsistent; decide
  directory i := by
    rw [State.cacheSet_reset]
    exact CacheSet.lawful_of_invalid (by simp [CacheWay.empty]) (by simp [CacheWay.empty])
  counters := Counters.lawful_zero
  writeBacks := by
    rw [State.writeBacksCovered, State.dirtyLines_reset]
    decide

end Sys2Proof.Machine
end

section
/-! What a failed fetch, an unknown word and a store in bounds make of a step, which addresses select the same word,
and the relation `SameArchitecture`: every operation of the machine keeps it. The statements of 20_memory.md are read
off these lemmas. -/

namespace Sys2Proof.Machine

/-! ## Addresses that select the same word -/

theorem State.wordAt_of_widx_eq (s : State) {a b : Word} (h : widx a = widx b) : s.wordAt a = s.wordAt b := by
  simp only [State.wordAt, inBounds, h]

/-- Where memory ends (20_memory.md R41). -/
theorem State.wordAt_eq_none_iff (s : State) (a : Word) : s.wordAt a = none ↔ 0x000FFFFF < a.toNat := by
  rw [← Nat.not_le, ← inBounds_iff]
  by_cases h : inBounds a
  · simp [State.wordAt_of_inBounds h, h]
  · simp [State.wordAt_of_not_inBounds h, h]

/-! ## The step, by the word at the fetch pointer -/

theorem step_of_fetch_none {s : State} (hrun : s.runState = .running) (hword : s.wordAt s.fp = none) :
    step s = .next (s.raise .outOfBoundsAccess s.fp) := by
  simp only [step, runCycle, hrun, State.fetch, hword]

theorem step_of_unknownInstruction {s : State} {iw : Word} (hrun : s.runState = .running)
    (hword : s.wordAt s.fp = some iw) (hdec : decode iw = .unknownInstruction) :
    step s = .next (s.afterFetch.raise .unknownInstruction iw) := by
  simp only [step, runCycle, hrun, State.fetch, hword, hdec]

/-- A raise is a fatal condition and nothing else. -/
theorem State.raise_faults (s : State) (c : FaultCause) (x : Word) : Faults c x s (s.raise c x) where
  runState := rfl
  faultCause := rfl
  faultInfo := rfl
  fp := rfl
  ep := rfl
  registers _ := rfl
  memory _ := rfl
  directory _ := rfl
  counters := rfl

/-- `afterFetch` is step 1 of the cycle and nothing else. -/
theorem State.afterFetch_fetchStep (s : State) : FetchStep s s.afterFetch where
  ep := rfl
  fp := rfl
  counters := rfl
  runState := rfl
  faultCause := rfl
  faultInfo := rfl
  registers _ := rfl
  memory _ := rfl
  directory _ := rfl

theorem Instr.isBranch_of_isStore {i : Instr} (h : i.isStore = true) : i.isBranch = false := by
  cases i with
  | stImm | stReg | stScaled => rfl
  | _ => cases h

/-- What each of the three forms of `st` does at an in-bounds address. -/
theorem exec_store {i : Instr} {s : State} {d s1 : RegIdx} {b : OperandB} (hstore : i.isStore = true)
    (haccess : i.dataAccess = some (d, s1, b)) (hin : inBounds (s.effectiveAddress s1 b)) :
    exec i s = .next (({ s.setWord (s.effectiveAddress s1 b) (s.readReg d) with
      counters := s.counters.countMemWrite } : State).cacheAccess (s.effectiveAddress s1 b) .write) := by
  obtain ⟨t, hexec, heffect⟩ := exec_effect s i
  rw [hexec]
  cases heffect with
  | stored _ _ _ access => cases haccess.symm.trans access; rfl
  | accessFault _ access bounds => cases haccess.symm.trans access; exact absurd hin bounds
  | halted => cases hstore
  | loaded _ store => cases hstore.symm.trans store
  | computed _ _ _ store => cases hstore.symm.trans store
  | branched _ _ _ store => cases hstore.symm.trans store
  | branchFault branch => cases (Instr.isBranch_of_isStore hstore).symm.trans branch

/-! ## States that differ at most in the directory and the counters -/

namespace SameArchitecture
variable {s s' : State} (h : SameArchitecture s s')
include h

theorem readReg (r : RegIdx) : s'.readReg r = s.readReg r := State.readReg_congr h.regs r

theorem wordAt (a : Word) : s'.wordAt a = s.wordAt a := State.wordAt_congr h.mem a

theorem operandB (b : OperandB) : s'.operandB b = s.operandB b := by
  cases b with
  | imm v => rfl
  | reg s2 => exact h.readReg s2
  | scaled s2 => rw [State.operandB_scaled, State.operandB_scaled, h.readReg]

theorem effectiveAddress (s1 : RegIdx) (b : OperandB) : s'.effectiveAddress s1 b = s.effectiveAddress s1 b := by
  rw [State.effectiveAddress_eq, State.effectiveAddress_eq, h.readReg, h.operandB]

theorem branchTarget (off : Word) : s'.branchTarget off = s.branchTarget off :=
  congrArg (· + off) h.control.ep

theorem afterFetch : SameArchitecture s.afterFetch s'.afterFetch where
  regs := h.regs
  mem := h.mem
  control := { h.control with fp := congrArg (· + 4) h.control.fp, ep := h.control.fp }

theorem halt : SameArchitecture s.halt s'.halt where
  regs := h.regs
  mem := h.mem
  control := { h.control with runState := rfl }

theorem raise (c : FaultCause) {x x' : Word} (hx : x' = x) : SameArchitecture (s.raise c x) (s'.raise c x') where
  regs := h.regs
  mem := h.mem
  control := { h.control with runState := rfl, faultCause := rfl, faultInfo := hx }

theorem branch {taken taken' : Bool} {target target' : Word} (htaken : taken' = taken) (htarget : target' = target) :
    SameArchitecture (s.branch taken target) (s'.branch taken' target') where
  regs := h.regs
  mem := h.mem
  control := { h.control with fp := by simp only [State.branch_fp, htaken, htarget, h.control.fp] }

theorem writeReg (d : RegIdx) {v v' : Word} (hv : v' = v) :
    SameArchitecture (s.writeReg d v) (s'.writeReg d v') where
  regs := by simp only [State.writeReg, h.regs, hv]
  mem := h.mem
  control := { h.control with }

theorem setWord (a v : Word) : SameArchitecture (s.setWord a v) (s'.setWord a v) where
  regs := h.regs
  mem := congrArg (Memory.store · (widx a) v) h.mem
  control := { h.control with }

theorem setCounters (c c' : Counters) :
    SameArchitecture ({ s with counters := c } : State) ({ s' with counters := c' } : State) where
  regs := h.regs
  mem := h.mem
  control := { h.control with }

/-- The two directories may answer differently: `CacheAccess` touches nothing but the directory and the counters. -/
theorem cacheAccess (a : Word) (k : AccessKind) : SameArchitecture (s.cacheAccess a k) (s'.cacheAccess a k) where
  regs := h.regs
  mem := h.mem
  control := { h.control with }

theorem load (d : RegIdx) {a a' : Word} (ha : a' = a) : SameArchitecture (s.load d a) (s'.load d a') := by
  subst ha
  rcases s.load_cases d a' with ⟨hin, hs⟩ | ⟨hout, hs⟩ <;>
    rcases s'.load_cases d a' with ⟨hin', hs'⟩ | ⟨hout', hs'⟩
  · rw [hs, hs']
    exact ((h.setCounters _ _).writeReg d (congrArg (Memory.word · (widx a')) h.mem)).cacheAccess a' .read
  · exact absurd hin hout'
  · exact absurd hin' hout
  · rw [hs, hs']
    exact h.raise _ rfl

theorem storeTo (d : RegIdx) {a a' : Word} (ha : a' = a) : SameArchitecture (s.storeTo d a) (s'.storeTo d a') := by
  subst ha
  rcases s.storeTo_cases d a' with ⟨hin, hs⟩ | ⟨hout, hs⟩ <;>
    rcases s'.storeTo_cases d a' with ⟨hin', hs'⟩ | ⟨hout', hs'⟩
  · rw [hs, hs', h.readReg]
    exact ((h.setWord a' _).setCounters _ _).cacheAccess a' .write
  · exact absurd hin hout'
  · exact absurd hin' hout
  · rw [hs, hs']
    exact h.raise _ rfl

theorem arith (fn : AluFn) (d s1 : RegIdx) (b : OperandB) :
    SameArchitecture (s.arith fn d s1 b) (s'.arith fn d s1 b) :=
  h.writeReg d (congrArg₂ (alu fn · · 0) (h.readReg s1) (h.operandB b))

theorem shift (fn : AluFn) (d s1 : RegIdx) (n : ShiftCount) :
    SameArchitecture (s.shift fn d s1 n) (s'.shift fn d s1 n) :=
  h.writeReg d (congrArg (alu fn · 0 n) (h.readReg s1))

end SameArchitecture

/-- Every instruction keeps the relation. -/
theorem exec_sameArchitecture {s s' : State} (h : SameArchitecture s s') :
    ∀ i : Instr, ∃ t t', exec i s = .next t ∧ exec i s' = .next t' ∧ SameArchitecture t t'
  | .halt => ⟨_, _, rfl, rfl, h.halt⟩
  | .ldImm d s1 imm => ⟨_, _, rfl, rfl, h.load d (h.effectiveAddress s1 (.imm imm))⟩
  | .ldReg d s1 s2 => ⟨_, _, rfl, rfl, h.load d (h.effectiveAddress s1 (.reg s2))⟩
  | .ldScaled d s1 s2 => ⟨_, _, rfl, rfl, h.load d (h.effectiveAddress s1 (.scaled s2))⟩
  | .stImm d s1 imm => ⟨_, _, rfl, rfl, h.storeTo d (h.effectiveAddress s1 (.imm imm))⟩
  | .stReg d s1 s2 => ⟨_, _, rfl, rfl, h.storeTo d (h.effectiveAddress s1 (.reg s2))⟩
  | .stScaled d s1 s2 => ⟨_, _, rfl, rfl, h.storeTo d (h.effectiveAddress s1 (.scaled s2))⟩
  | .ldaImm d s1 imm => ⟨_, _, rfl, rfl, h.writeReg d (h.effectiveAddress s1 (.imm imm))⟩
  | .ldaReg d s1 s2 => ⟨_, _, rfl, rfl, h.writeReg d (h.effectiveAddress s1 (.reg s2))⟩
  | .ldaScaled d s1 s2 => ⟨_, _, rfl, rfl, h.writeReg d (h.effectiveAddress s1 (.scaled s2))⟩
  | .addImm d s1 imm => ⟨_, _, rfl, rfl, h.arith .add d s1 (.imm imm)⟩
  | .addReg d s1 s2 => ⟨_, _, rfl, rfl, h.arith .add d s1 (.reg s2)⟩
  | .subImm d s1 imm => ⟨_, _, rfl, rfl, h.arith .sub d s1 (.imm imm)⟩
  | .subReg d s1 s2 => ⟨_, _, rfl, rfl, h.arith .sub d s1 (.reg s2)⟩
  | .ext d s1 n => ⟨_, _, rfl, rfl, h.shift .sra d s1 n⟩
  | .extu d s1 n => ⟨_, _, rfl, rfl, h.shift .srl d s1 n⟩
  | .mak d s1 n => ⟨_, _, rfl, rfl, h.shift .sll d s1 n⟩
  | .rot d s1 n => ⟨_, _, rfl, rfl, h.shift .ror d s1 n⟩
  | .br disp => by
    refine ⟨_, _, execBr_eq disp s, execBr_eq disp s', ?_⟩
    split
    · exact h.raise _ rfl
    · exact h.branch rfl (h.branchTarget _)
  | .bcnd mask s1 disp => by
    refine ⟨_, _, execBcnd_eq mask s1 disp s, execBcnd_eq mask s1 disp s', ?_⟩
    split
    · exact h.raise _ rfl
    · exact h.branch (congrArg (conditionHolds mask) (h.readReg s1)) (h.branchTarget _)

end Sys2Proof.Machine
end

section
/-! The statements of 20_memory.md, each from the lemmas on the operation it is about. -/

namespace Sys2Proof.Machine

/-- Settles O19: both states fetch the same word, and every instruction keeps the relation. -/
theorem directoryNeverAffectsExecution : Obligations.DirectoryNeverAffectsExecution := by
  intro s s' t t' h hs hs'
  have hword : s'.wordAt s'.fp = s.wordAt s.fp := by rw [h.control.fp, h.wordAt]
  rcases step_cases hs with
    ⟨hended, rfl⟩ | ⟨hrun, hnone, rfl⟩ | ⟨iw, hrun, hfetch, hdec, rfl⟩ | ⟨iw, i, hrun, hfetch, hdec, hexec⟩
  · cases (step_of_ended (h.control.runState ▸ hended)).symm.trans hs'
    exact h
  · cases (step_of_fetch_none (h.control.runState.trans hrun) (hword.trans hnone)).symm.trans hs'
    exact h.raise _ h.control.fp
  · cases (step_of_unknownInstruction (h.control.runState.trans hrun) (hword.trans hfetch) hdec).symm.trans hs'
    exact h.afterFetch.raise _ rfl
  · obtain ⟨u, u', hu, hu', hsame⟩ := exec_sameArchitecture h.afterFetch i
    rw [step_of_form (h.control.runState.trans hrun) (hword.trans hfetch) hdec] at hs'
    cases hu.symm.trans hexec
    cases hu'.symm.trans hs'
    exact hsame

/-- Settles O18: the store completes and leaves the pointers where the fetch put them, so the next fetch reads the
word just set. -/
theorem storeIntoNextWordIsFetched : Obligations.StoreIntoNextWordIsFetched := by
  intro s iw i j d s1 b hrun hword hdec hstore haccess hbound hwidx hstored
  have hin : inBounds (s.afterFetch.effectiveAddress s1 b) := by
    rw [State.effectiveAddress_afterFetch, inBounds, hwidx]
    exact (inBounds_iff _).2 hbound
  have hstep := (step_of_form hrun hword hdec).trans (exec_store hstore haccess hin)
  have hread := s.afterFetch.wordAt_setWord_self (s.readReg d) hin hwidx.symm
  exact ⟨_, _, hstep, hread, State.afterFetch_fetchStep _, step_of_form hrun hread hstored⟩

/-- Settles O57: both addresses select the same word. -/
theorem misalignedAccessUsesTheAlignedWord : Obligations.MisalignedAccessUsesTheAlignedWord := by
  intro s a b v hab
  have hwidx : widx a = widx b := by rw [widx_eq, widx_eq, hab]
  exact ⟨s.wordAt_of_widx_eq hwidx, s.wordAt_eq_none_iff a,
    fun hbound => s.wordAt_setWord_self v ((inBounds_iff a).2 hbound) hwidx.symm⟩

/-- Settles O9: there is no word to fetch, and the raise is all the step does. -/
theorem fetchOutOfBoundsFaults : Obligations.FetchOutOfBoundsFaults :=
  fun s hrun hout =>
    ⟨_, step_of_fetch_none hrun ((s.wordAt_eq_none_iff s.fp).2 hout), s.raise_faults _ _⟩

end Sys2Proof.Machine
end

section
/-! What the decoder's slices say of a word: their numbers, which words agree outside a mask, which words select an
instruction, and which select none. -/

namespace Sys2Proof

/-! ## Slices and masks -/

theorem agree_iff_bits {x y m : Word} :
    x &&& ~~~ m = y &&& ~~~ m ↔ ∀ i < 32, m.getLsbD i = false → x.getLsbD i = y.getLsbD i := by
  constructor
  · intro h i hi hmask
    have hbit := congrArg (·.getLsbD i) h
    simpa only [BitVec.getLsbD_and, BitVec.getLsbD_not, hi, hmask, decide_true, Bool.not_false, Bool.and_true]
      using hbit
  · intro h
    apply BitVec.eq_of_getLsbD_eq
    intro i hi
    cases hmask : m.getLsbD i with
    | true => simp [hmask]
    | false => simp [hmask, h i hi hmask]

/-- Words that agree outside a mask are the words with the same slices, for slices that cover what the mask leaves. -/
theorem agree_iff_slices {x y m : Word} (slices : List (Nat × Nat))
    (hcover : ∀ i < 32, m.getLsbD i = false ↔ ∃ s ∈ slices, s.1 ≤ i ∧ i < s.1 + s.2) :
    x &&& ~~~ m = y &&& ~~~ m ↔ ∀ s ∈ slices, x.extractLsb' s.1 s.2 = y.extractLsb' s.1 s.2 := by
  rw [agree_iff_bits]
  constructor
  · intro h s hs
    apply BitVec.eq_of_getLsbD_eq
    intro i hi
    by_cases hin : s.1 + i < 32
    · simp [hi, h _ hin ((hcover _ hin).2 ⟨s, hs, by omega⟩)]
    · simp [BitVec.getLsbD_of_ge _ (s.1 + i) (Nat.le_of_not_lt hin)]
  · intro h i hi hmask
    obtain ⟨s, hs, hlo, hhi⟩ := (hcover i hi).1 hmask
    have hbit := congrArg (·.getLsbD (i - s.1)) (h s hs)
    have hlen : i - s.1 < s.2 := by omega
    simpa [hlen, Nat.add_sub_cancel' hlo] using hbit

/-- `imm16` and `disp16` are one slice (30_encoding.md R67, R70). -/
theorem disp16_eq_imm16 (w : Word) : (extractFields w).disp16 = (extractFields w).imm16 := rfl

/-! Which fields of a word each format reads (30_encoding.md R72, R79). -/

section formats
variable {x y : Word}

theorem agree_formatH_iff :
    x &&& ~~~ 0x03FFFFFF = y &&& ~~~ 0x03FFFFFF ↔ (extractFields x).op = (extractFields y).op :=
  (agree_iff_slices [(26, 6)] (by decide)).trans (by simp [extractFields])

theorem agree_formatI_iff :
    x &&& ~~~ 0 = y &&& ~~~ 0 ↔
      (extractFields x).op = (extractFields y).op ∧ (extractFields x).d = (extractFields y).d ∧
        (extractFields x).s1 = (extractFields y).s1 ∧ (extractFields x).imm16 = (extractFields y).imm16 :=
  (agree_iff_slices [(26, 6), (21, 5), (16, 5), (0, 16)] (by decide)).trans (by simp [extractFields])

theorem agree_formatJ_iff :
    x &&& ~~~ 0 = y &&& ~~~ 0 ↔
      (extractFields x).op = (extractFields y).op ∧ (extractFields x).disp26 = (extractFields y).disp26 :=
  (agree_iff_slices [(26, 6), (0, 26)] (by decide)).trans (by simp [extractFields])

theorem agree_formatT_iff :
    x &&& ~~~ 0x000001E0 = y &&& ~~~ 0x000001E0 ↔
      (extractFields x).op = (extractFields y).op ∧ (extractFields x).op2 = (extractFields y).op2 ∧
        (extractFields x).scale = (extractFields y).scale ∧ (extractFields x).d = (extractFields y).d ∧
        (extractFields x).s1 = (extractFields y).s1 ∧ (extractFields x).s2 = (extractFields y).s2 :=
  (agree_iff_slices [(26, 6), (10, 6), (9, 1), (21, 5), (16, 5), (0, 5)] (by decide)).trans
    (by simp [extractFields])

/-- Also format T where the scale flag is ignored. -/
theorem agree_formatB_iff :
    x &&& ~~~ 0x000003E0 = y &&& ~~~ 0x000003E0 ↔
      (extractFields x).op = (extractFields y).op ∧ (extractFields x).op2 = (extractFields y).op2 ∧
        (extractFields x).d = (extractFields y).d ∧ (extractFields x).s1 = (extractFields y).s1 ∧
        (extractFields x).s2 = (extractFields y).s2 :=
  (agree_iff_slices [(26, 6), (10, 6), (21, 5), (16, 5), (0, 5)] (by decide)).trans (by simp [extractFields])

end formats

/-! ## The words that select an instruction -/

/-- The fields of a word select an instruction exactly where the word agrees with the canonical one outside the ignored
bits. -/
theorem selectedBy_iff_agree (p : Params) (w : Word) (i : Instr) :
    SelectedBy p (extractFields w) i ↔ w &&& ~~~ i.ignoredBits = encodeWith p i &&& ~~~ i.ignoredBits := by
  cases i with
  | halt => exact Iff.symm (agree_formatH_iff.trans (by simp [SelectedBy, encodeWith]))
  | ldImm | stImm | ldaImm | addImm | subImm =>
    exact Iff.symm (agree_formatI_iff.trans (by simp [SelectedBy, encodeWith]))
  | bcnd =>
    exact Iff.symm (agree_formatI_iff.trans (by simp [SelectedBy, encodeWith, disp16_eq_imm16]))
  | br => exact Iff.symm (agree_formatJ_iff.trans (by simp [SelectedBy, encodeWith]))
  | ldReg | ldScaled | stReg | stScaled | ldaReg | ldaScaled =>
    exact Iff.symm (agree_formatT_iff.trans (by simp [SelectedBy, encodeWith]))
  | addReg | subReg | ext | extu | mak | rot =>
    exact Iff.symm (agree_formatB_iff.trans (by simp [SelectedBy, encodeWith]))

theorem selectedBy_encodeWith (p : Params) (i : Instr) : SelectedBy p (extractFields (encodeWith p i)) i :=
  (selectedBy_iff_agree p _ i).2 rfl

/-- The encoder leaves every ignored bit zero, under every table. -/
theorem encodeWith_and_ignoredBits (p : Params) : ∀ i : Instr, encodeWith p i &&& i.ignoredBits = 0
  | .halt => formatH_low _
  | .ldImm .. | .stImm .. | .ldaImm .. | .addImm .. | .subImm .. | .br .. | .bcnd .. => BitVec.and_zero
  | .ldReg .. | .ldScaled .. | .stReg .. | .stScaled .. | .ldaReg .. | .ldaScaled .. => formatT_low _ _ _ _ _
  | .addReg .. | .subReg .. => formatT_low_unscaled _ _ _ _
  | .ext .. | .extu .. | .mak .. | .rot .. => formatB_low _ _ _ _

theorem encodeWith_and_not_ignoredBits (p : Params) (i : Instr) :
    encodeWith p i &&& ~~~ i.ignoredBits = encodeWith p i :=
  calc encodeWith p i &&& ~~~ i.ignoredBits
      = encodeWith p i &&& i.ignoredBits ||| encodeWith p i &&& ~~~ i.ignoredBits := by
        rw [encodeWith_and_ignoredBits]
        exact BitVec.zero_or.symm
    _ = encodeWith p i &&& (i.ignoredBits ||| ~~~ i.ignoredBits) := BitVec.and_or_distrib_left.symm
    _ = encodeWith p i := by rw [BitVec.or_not_self, BitVec.and_allOnes]

/-- Under an admissible table a word selects an instruction exactly where it is the canonical word but for the ignored
bits (30_encoding.md R79, R88). -/
theorem decodeWith_eq_form_iff {p : Params} (hopc : p.opc.Admissible) (hrot : p.rot0 = .identity) {w : Word}
    {i : Instr} : decodeWith p w = .form i ↔ w &&& ~~~ i.ignoredBits = encodeWith p i := by
  have hselected := selectedBy_iff_agree p w i
  rw [encodeWith_and_not_ignoredBits] at hselected
  rw [← hselected]
  exact ⟨selectedBy_of_select, select_of_selectedBy hopc (.inl hrot)⟩

theorem decode_eq_form_iff {w : Word} {i : Instr} : decode w = .form i ↔ w &&& ~~~ i.ignoredBits = encode i :=
  decodeWith_eq_form_iff opcDoc_admissible rfl

/-! ## The words that select none -/

/-- Without a fault on `rot` by 0 only the secondary opcode can make a word under `0x3C` unknown. -/
theorem selectBitfield_eq_unknown_iff {p : Params} {f : DecodedInstruction} (hrot : p.rot0 = .identity) :
    selectBitfield p f = .unknownInstruction ↔
      f.op2 ∉ [p.opc.op2Ext, p.opc.op2Extu, p.opc.op2Mak, p.opc.op2Rot] := by
  simp only [List.mem_cons, List.not_mem_nil, or_false, not_or]
  constructor
  · intro h
    unfold selectBitfield at h
    iterate 3
      split at h
      · cases h
    split at h
    · simp [hrot] at h
    · exact ⟨‹_›, ‹_›, ‹_›, ‹_›⟩
  · intro h
    simp only [selectBitfield, h, if_false]

theorem selectTriadic_eq_unknown_iff {p : Params} {f : DecodedInstruction} :
    selectTriadic p f = .unknownInstruction ↔
      f.op2 ∉ [p.opc.op2Ld, p.opc.op2St, p.opc.op2Lda, p.opc.op2Add, p.opc.op2Sub] := by
  simp only [List.mem_cons, List.not_mem_nil, or_false, not_or]
  constructor
  · intro h
    unfold selectTriadic at h
    iterate 3
      split at h
      · split at h <;> cases h
    iterate 2
      split at h
      · cases h
    exact ⟨‹_›, ‹_›, ‹_›, ‹_›, ‹_›⟩
  · intro h
    simp only [selectTriadic, h, if_false]

/-- The primary opcodes that select a form by themselves. -/
def OpcTable.primary (t : OpcTable) : List Opcode :=
  [t.opHalt, t.opLdImm, t.opStImm, t.opLdaImm, t.opAddImm, t.opSubImm, t.opBr, t.opBcnd]

theorem select_eq_secondLevel {p : Params} {f : DecodedInstruction} (h : f.op ∉ p.opc.primary) :
    select p f = if f.op = opBitfield then selectBitfield p f
      else if f.op = opTriadic then selectTriadic p f else .unknownInstruction := by
  simp only [OpcTable.primary, List.mem_cons, List.not_mem_nil, or_false, not_or] at h
  simp only [select, h, if_false]

theorem select_form_of_primary {p : Params} {f : DecodedInstruction} (hopc : p.opc.Admissible)
    (hrot : p.rot0 = .identity) (h : f.op ∈ p.opc.primary) : ∃ i, select p f = .form i := by
  have form : ∀ {i}, SelectedBy p f i → ∃ i, select p f = .form i :=
    fun hi => ⟨_, select_of_selectedBy hopc (.inl hrot) hi⟩
  simp only [OpcTable.primary, List.mem_cons, List.not_mem_nil, or_false] at h
  rcases h with h | h | h | h | h | h | h | h
  · exact form (i := .halt) h
  · exact form (i := .ldImm ..) ⟨h, rfl, rfl, rfl⟩
  · exact form (i := .stImm ..) ⟨h, rfl, rfl, rfl⟩
  · exact form (i := .ldaImm ..) ⟨h, rfl, rfl, rfl⟩
  · exact form (i := .addImm ..) ⟨h, rfl, rfl, rfl⟩
  · exact form (i := .subImm ..) ⟨h, rfl, rfl, rfl⟩
  · exact form (i := .br _) ⟨h, rfl⟩
  · exact form (i := .bcnd ..) ⟨h, rfl, rfl, rfl⟩

/-- The two group numbers of an admissible table are no form's own. -/
theorem OpcTable.Admissible.groups_not_primary {t : OpcTable} (h : t.Admissible) :
    opBitfield ∉ t.primary ∧ opTriadic ∉ t.primary := by
  have hdisjoint : t.primary.Disjoint [opBitfield, opTriadic] := List.disjoint_of_nodup_append h.1
  exact ⟨fun hmem => hdisjoint hmem (by simp), fun hmem => hdisjoint hmem (by simp)⟩

/-- The fields that select no form, under every admissible table (30_encoding.md R78, R82). -/
theorem select_eq_unknown_iff {p : Params} {f : DecodedInstruction} (hopc : p.opc.Admissible)
    (hrot : p.rot0 = .identity) :
    select p f = .unknownInstruction ↔
      f.op ∉ p.opc.primary ++ [opBitfield, opTriadic] ∨
      (f.op = opBitfield ∧ f.op2 ∉ [p.opc.op2Ext, p.opc.op2Extu, p.opc.op2Mak, p.opc.op2Rot]) ∨
      (f.op = opTriadic ∧
        f.op2 ∉ [p.opc.op2Ld, p.opc.op2St, p.opc.op2Lda, p.opc.op2Add, p.opc.op2Sub]) := by
  obtain ⟨hbitfieldOwn, htriadicOwn⟩ := hopc.groups_not_primary
  have hgroups : opBitfield ≠ opTriadic := by decide
  by_cases hprimary : f.op ∈ p.opc.primary
  · obtain ⟨i, hi⟩ := select_form_of_primary hopc hrot hprimary
    have hbitfield : f.op ≠ opBitfield := fun h => hbitfieldOwn (h ▸ hprimary)
    have htriadic : f.op ≠ opTriadic := fun h => htriadicOwn (h ▸ hprimary)
    simp [hi, hprimary, hbitfield, htriadic]
  · rw [select_eq_secondLevel hprimary]
    by_cases hbitfield : f.op = opBitfield
    · rw [if_pos hbitfield, selectBitfield_eq_unknown_iff hrot]
      simp [hbitfield, hgroups]
    · rw [if_neg hbitfield]
      by_cases htriadic : f.op = opTriadic
      · rw [if_pos htriadic, selectTriadic_eq_unknown_iff]
        simp [htriadic, hgroups.symm]
      · simp [hprimary, hbitfield, htriadic]

/-- `select` looks at the number of `ld` immediate for the words that have the old or the new one only. -/
theorem select_replace_opLdImm {p : Params} {f : DecodedInstruction} {op : Opcode} (hold : f.op ≠ p.opc.opLdImm)
    (hnew : f.op ≠ op) : select { p with opc := { p.opc with opLdImm := op } } f = select p f := by
  simp only [select, if_neg hold, if_neg hnew]
  rfl

/-! ## The fields as numbers -/

theorem slice_toNat (w : Word) (lo len : Nat) :
    (w.extractLsb' lo len).toNat = w.toNat / 2 ^ lo % 2 ^ len := by
  rw [BitVec.extractLsb'_toNat, Nat.shiftRight_eq_div_pow]

theorem low_slice_toNat (w : Word) (len : Nat) : (w.extractLsb' 0 len).toNat = w.toNat % 2 ^ len := by
  rw [slice_toNat, pow_zero, Nat.div_one]

/-- The primary opcode is the top of the word, so nothing is cut off above it. -/
theorem op_toNat (w : Word) : (extractFields w).op.toNat = w.toNat / 2 ^ 26 :=
  (slice_toNat w 26 6).trans (Nat.mod_eq_of_lt (by omega))

theorem op_eq_iff {w : Word} {op : Opcode} : (extractFields w).op = op ↔ w.toNat / 2 ^ 26 = op.toNat := by
  rw [← op_toNat, BitVec.toNat_inj]

theorem op2_toNat (w : Word) : (extractFields w).op2.toNat = w.toNat / 2 ^ 10 % 2 ^ 6 := slice_toNat w 10 6

end Sys2Proof
end

section
/-! The conditions of `bcnd`, by the sign of the value. -/

namespace Sys2Proof.Machine

/-- The mask bit that decides: bit 0 above zero, bit 1 at zero, bit 2 below (43_branch.md R142). -/
theorem conditionHolds_eq (m : CondMask) (v : Word) :
    conditionHolds m v =
      if 0 < v.toInt then m.getLsbD 0 else if v.toInt = 0 then m.getLsbD 1 else m.getLsbD 2 := by
  rw [conditionHolds, conditionFlag_eq]
  split_ifs <;> rfl

/-- Masks with the same low three bits are the same condition. -/
theorem conditionHolds_congr {m m' : CondMask} (h : m.toNat % 8 = m'.toNat % 8) (v : Word) :
    conditionHolds m v = conditionHolds m' v := by
  have hbit : ∀ j < 3, m.getLsbD j = m'.getLsbD j := by
    intro j hj
    have hmod : (m.toNat % 2 ^ 3).testBit j = (m'.toNat % 2 ^ 3).testBit j := congrArg (Nat.testBit · j) h
    simp only [Nat.testBit_mod_two_pow, hj, decide_true, Bool.true_and] at hmod
    exact hmod
  rw [conditionHolds_eq, conditionHolds_eq, hbit 0 (by decide), hbit 1 (by decide), hbit 2 (by decide)]

end Sys2Proof.Machine
end

section
/-! The statements of 30_encoding.md, each from the lemmas on slices, masks, `select` and conditions. -/

namespace Sys2Proof
open Sys2Proof.Machine

/-- Settles O1: the canonical word has the fields of its form, and under an admissible table these select it. -/
theorem decodeInvertsEncodeForEveryTable : Obligations.DecodeInvertsEncodeForEveryTable :=
  fun p i hopc hrot => select_of_selectedBy hopc hrot (selectedBy_encodeWith p i)

/-- Settles O2: both words are the canonical one but for the ignored bits. -/
theorem ignoredBitsDoNotMatter : Obligations.IgnoredBitsDoNotMatter := by
  intro w i hw
  have hcanonical := decode_eq_form_iff.1 hw
  exact ⟨hcanonical.symm, fun w' hagree => decode_eq_form_iff.2 (hagree.trans hcanonical)⟩

/-- Settles O4: the unknown fields of any admissible table, read as numbers for the default one. -/
theorem unknownWordsExactly : Obligations.UnknownWordsExactly := by
  intro w
  have hlist : [0x00, 0x09, 0x0D, 0x17, 0x1C, 0x1D, 0x30, 0x3A, 0x3C, 0x3D].Perm
      ((opcDoc.primary ++ [opBitfield, opTriadic]).map BitVec.toNat) := by decide
  have hop : w.toNat / 2 ^ 26 ∈ [0x00, 0x09, 0x0D, 0x17, 0x1C, 0x1D, 0x30, 0x3A, 0x3C, 0x3D] ↔
      (extractFields w).op ∈ opcDoc.primary ++ [opBitfield, opTriadic] := by
    rw [hlist.mem_iff, ← op_toNat, List.mem_map_of_injective BitVec.toNat_injective]
  have hop2 : ∀ l : List Opcode, w.toNat / 2 ^ 10 % 2 ^ 6 ∈ l.map BitVec.toNat ↔ (extractFields w).op2 ∈ l :=
    fun l => by rw [← op2_toNat, List.mem_map_of_injective BitVec.toNat_injective]
  rw [decode, decodeWith, select_eq_unknown_iff opcDoc_admissible rfl, op_eq_iff, op_eq_iff, hop, ← hop2, ← hop2]
  rfl

/-- Settles O5: the two tables differ in the one test for `ld` immediate. -/
theorem profilesDifferInLoadImmediateOnly : Obligations.ProfilesDifferInLoadImmediateOnly := by
  refine ⟨opcDoc_admissible, opcM88k_admissible, fun w => ?_⟩
  intro alt loadImmediate
  have hdoc : (extractFields w).op = opcDoc.opLdImm ↔ w.toNat / 2 ^ 26 = 0x17 := op_eq_iff
  have hm88k : (extractFields w).op = opcM88k.opLdImm ↔ w.toNat / 2 ^ 26 = 0x05 := op_eq_iff
  split
  · next h =>
    have hword := hdoc.2 h
    refine ⟨select_of_selectedBy opcDoc_admissible (.inl rfl) ⟨hword, rfl, rfl, rfl⟩,
      (select_eq_unknown_iff opcM88k_admissible rfl).2 (.inl ?_)⟩
    rw [hword]
    decide
  · next hnotDoc =>
    split
    · next h =>
      have hword := hm88k.2 h
      refine ⟨(select_eq_unknown_iff opcDoc_admissible rfl).2 (.inl ?_),
        select_of_selectedBy opcM88k_admissible (.inl rfl) ⟨hword, rfl, rfl, rfl⟩⟩
      rw [hword]
      decide
    · next hnotAlt => exact select_replace_opLdImm (p := params) (mt hdoc.1 hnotDoc) (mt hm88k.1 hnotAlt)

/-- Settles O58: one mask bit decides, and each name's mask has the bits of its signs. -/
theorem namedConditionsMeanWhatTheySay : Obligations.NamedConditionsMeanWhatTheySay := by
  intro v
  refine ⟨?_, ?_, ?_, ?_, ?_, ?_, ?_, ?_, fun m m' h => conditionHolds_congr h v⟩
  all_goals
    rw [conditionHolds_eq]
    rcases lt_trichotomy v.toInt 0 with h | h | h
    · simp [CondName.mask, h, h.le, h.ne, h.not_gt, h.not_ge]
    · simp [CondName.mask, h]
    · simp [CondName.mask, h, h.le, h.ne', h.not_gt, h.not_ge]

/-- Settles O3: each output is a slice of the word, and a slice is a quotient and a remainder of its number. -/
theorem decoderFieldsAreSlices : Obligations.DecoderFieldsAreSlices :=
  fun w => ⟨op_toNat w, slice_toNat w 21 5, slice_toNat w 16 5, op2_toNat w, slice_toNat w 9 1, low_slice_toNat w 5,
    low_slice_toNat w 16, low_slice_toNat w 26, low_slice_toNat w 16⟩

/-- Settles O6: each word is the canonical one of its instruction but for the ignored bits, and the last has a secondary
opcode of no form. -/
theorem sampleWordsDecode : Obligations.SampleWordsDecode := by
  refine ⟨?_, ?_, ?_, ?_, ?_, ?_, (unknownWordsExactly _).2 (.inr (.inl (by decide)))⟩
  all_goals
    rw [decode_eq_form_iff]
    decide

end Sys2Proof
end

section
/-! How a run ends: the one instruction that halts, and the two states in which a step can raise a fatal condition. -/

namespace Sys2Proof.Machine

/-- The halt signal is raised by the handler of `halt` only (40_execution_cycle.md R95). -/
theorem exec_halted_iff {i : Instr} {s t : State} (hrun : s.runState = .running) (h : exec i s = .next t) :
    t.runState = .halted ↔ i = .halt := by
  have running_ne : s.runState ≠ .halted := by rw [hrun]; decide
  constructor
  · intro hhalted
    cases effect_of_exec h with
    | halted => rfl
    | loaded => exact absurd hhalted running_ne
    | stored => exact absurd hhalted running_ne
    | accessFault => cases hhalted
    | computed => exact absurd hhalted running_ne
    | branched => exact absurd hhalted running_ne
    | branchFault => cases hhalted
  · rintro rfl
    cases h
    rfl

/-- A fatal condition is raised either instead of the fetch step or right after it: an instruction that faults has
changed nothing before it raises (40_execution_cycle.md R96, decision D15; log 12). -/
theorem step_faulted_cases {s t : State} (hrun : s.runState = .running) (h : step s = .next t)
    (hfaulted : t.runState = .faulted) : ∃ c x, t = s.raise c x ∨ t = s.afterFetch.raise c x := by
  rcases step_cases h with ⟨hended, -⟩ | ⟨-, -, rfl⟩ | ⟨iw, -, -, -, rfl⟩ | ⟨iw, i, -, -, -, hexec⟩
  · exact absurd hrun hended
  · exact ⟨_, _, .inl rfl⟩
  · exact ⟨_, _, .inr rfl⟩
  · rcases exec_record (s := s.afterFetch) hrun hexec with ⟨c, x, -, rfl⟩ | ⟨hnot, -, -⟩
    · exact ⟨c, x, .inr rfl⟩
    · exact absurd hfaulted hnot

end Sys2Proof.Machine
end

section
/-! The statements of 40_execution_cycle.md, each from the lemmas on the fetch step and on how a run ends. -/

namespace Sys2Proof.Machine

/-- Settles O11: the raise comes before the fetch step or right after it, and neither touches anything else. -/
theorem fatalStepKeepsEverythingElse : Obligations.FatalStepKeepsEverythingElse := by
  intro s t hrun h hfaulted
  obtain ⟨c, x, rfl | rfl⟩ := step_faulted_cases hrun h hfaulted
  · exact ⟨fun _ => rfl, fun _ => rfl, fun _ => rfl, .inr ⟨rfl, rfl, rfl⟩⟩
  · exact ⟨fun _ => rfl, fun _ => rfl, fun _ => rfl, .inl ⟨rfl, rfl, rfl⟩⟩

/-- Settles O13: a failed fetch and an unknown word end in `Faulted`, and of the instructions only `halt` halts. -/
theorem onlyHaltHalts : Obligations.OnlyHaltHalts := by
  intro s t hrun h
  rcases step_cases h with
    ⟨hended, -⟩ | ⟨-, hnone, rfl⟩ | ⟨iw, -, hword, hdec, rfl⟩ | ⟨iw, i, -, hword, hdec, hexec⟩
  · exact absurd hrun hended
  · simp [hnone]
  · simp [hword, hdec]
  · rw [exec_halted_iff (s := s.afterFetch) hrun hexec]
    simp [hword, hdec]

/-- Settles O7: the state after step 1 is `afterFetch`. -/
theorem stepRunsTheDecodedInstruction : Obligations.StepRunsTheDecodedInstruction :=
  fun s _ _ hrun hword hdec => ⟨s.afterFetch, s.afterFetch_fetchStep, step_of_form hrun hword hdec⟩

/-- Settles O35: the handler sets the run state alone, and the canonical word of `halt` is all zeros. -/
theorem haltRule : Obligations.HaltRule :=
  ⟨rfl, fun s => ⟨s.halt, rfl, rfl, rfl, rfl, rfl, rfl, rfl, s.readReg_halt, s.wordAt_halt, s.cacheSet_halt⟩⟩

end Sys2Proof.Machine
end

section
/-! What the canonical words, the effective addresses and the load, store and register-write sequences are in the terms
of 41_load_store.md. -/

namespace Sys2Proof.Machine

/-! ## The canonical words as bit patterns (30_encoding.md R72, R88) -/

/-- Fields put side by side are the fields shifted into place and joined by `or`. -/
theorem setWidth_append_eq_or {n m : Nat} (x : BitVec n) (y : BitVec m) :
    (x ++ y).setWidth 32 = x.setWidth 32 <<< m ||| y.setWidth 32 := by
  apply BitVec.eq_of_getLsbD_eq
  intro i hi
  by_cases hm : i < m
  · simp [BitVec.getLsbD_append, hi, hm]
  · have hhigh : y.getLsbD i = false := BitVec.getLsbD_of_ge y i (Nat.le_of_not_lt hm)
    simp [BitVec.getLsbD_append, hi, hm, hhigh]

theorem formatI_eq_wordWith (op : Opcode) (d s1 : RegIdx) (low : BitVec 16) :
    formatI op d s1 low = wordWith (op.setWidth 32 <<< 26) d s1 (low.setWidth 32) :=
  calc formatI op d s1 low
      = (op ++ d ++ s1 ++ low).setWidth 32 := (BitVec.setWidth_eq _).symm
    _ = wordWith (op.setWidth 32 <<< 26) d s1 (low.setWidth 32) := by
      simp only [setWidth_append_eq_or, BitVec.shiftLeft_or_distrib, ← BitVec.shiftLeft_add]
      rfl

theorem formatT_eq_wordWith (op2 : Opcode) (scale : BitVec 1) (d s1 s2 : RegIdx) :
    formatT op2 scale d s1 s2 =
      wordWith (opTriadic.setWidth 32 <<< 26 ||| op2.setWidth 32 <<< 10 ||| scale.setWidth 32 <<< 9) d s1
        (s2.setWidth 32) :=
  calc formatT op2 scale d s1 s2
      = (opTriadic ++ d ++ s1 ++ op2 ++ scale ++ (0 : BitVec 4) ++ s2).setWidth 32 := (BitVec.setWidth_eq _).symm
    _ = opTriadic.setWidth 32 <<< 26 ||| d.setWidth 32 <<< 21 ||| s1.setWidth 32 <<< 16 ||| op2.setWidth 32 <<< 10 |||
          scale.setWidth 32 <<< 9 ||| 0#32 ||| s2.setWidth 32 := by
      simp only [setWidth_append_eq_or, BitVec.shiftLeft_or_distrib, ← BitVec.shiftLeft_add]
      rfl
    _ = wordWith _ d s1 _ := by
      unfold wordWith
      generalize opTriadic.setWidth 32 <<< 26 = op, op2.setWidth 32 <<< 10 = secondary,
        scale.setWidth 32 <<< 9 = scaled, d.setWidth 32 <<< 21 = dest, s1.setWidth 32 <<< 16 = base
      rw [BitVec.or_zero]
      ac_rfl

/-! ## The effective addresses (41_load_store.md R110) -/

theorem State.effectiveAddress_imm (s : State) (s1 : RegIdx) (imm : Imm16) :
    s.effectiveAddress s1 (.imm imm) = BitVec.ofNat 32 ((s.readReg s1).toNat + imm.toNat) := by
  apply BitVec.eq_of_toNat_eq
  rw [State.effectiveAddress_eq, State.operandB_imm, BitVec.toNat_add, BitVec.toNat_ofNat,
    BitVec.toNat_setWidth_of_le (by decide)]

theorem State.effectiveAddress_reg (s : State) (s1 s2 : RegIdx) :
    s.effectiveAddress s1 (.reg s2) = BitVec.ofNat 32 ((s.readReg s1).toNat + (s.readReg s2).toNat) := by
  apply BitVec.eq_of_toNat_eq
  rw [State.effectiveAddress_eq, State.operandB_reg, BitVec.toNat_add, BitVec.toNat_ofNat]

theorem State.effectiveAddress_scaled (s : State) (s1 s2 : RegIdx) :
    s.effectiveAddress s1 (.scaled s2) = BitVec.ofNat 32 ((s.readReg s1).toNat + 4 * (s.readReg s2).toNat) := by
  apply BitVec.eq_of_toNat_eq
  rw [State.effectiveAddress_eq, State.operandB_scaled, BitVec.toNat_add, BitVec.toNat_ofNat, BitVec.toNat_shiftLeft,
    Nat.shiftLeft_eq, Nat.add_mod_mod, Nat.mul_comm]

/-! ## The sequences of a load, a store and a register write -/

/-- A register write through the zero gate touches nothing but that register. -/
theorem State.writeReg_writesOnlyRegister (s : State) (d : RegIdx) (v : Word) :
    WritesOnlyRegister d v s (s.writeReg d v) where
  registers := s.readReg_writeReg d v
  control := ⟨rfl, rfl, rfl, rfl, rfl⟩
  memory := s.wordAt_writeReg d v
  directory := s.cacheSet_writeReg d v
  counters := rfl

/-- The directory answers from the address and its own sets alone, so an access made after other effects leaves it as
one made before them (45_cache_directory.md R165); with it one data word is counted. -/
theorem State.cacheAccess_countsAccess {s u : State} (a : Word) (k : AccessKind) (hcache : u.cache = s.cache)
    (hcounters : u.counters = { s.counters with
      memReads := s.counters.memReads + (if k = .read then 1 else 0)
      memWrites := s.counters.memWrites + (if k = .write then 1 else 0) }) :
    CountsAccess a k s (u.cacheAccess a k) := by
  have hset : ∀ i, u.cacheSet i = s.cacheSet i := State.cacheSet_congr hcache
  have hresult : u.accessResult a k = s.accessResult a k := by simp only [State.accessResult, hset]
  have hcount : (u.cacheAccess a k).counters = u.counters.countAccess k (s.accessResult a k) :=
    congrArg (u.counters.countAccess k) hresult
  rw [hcounters] at hcount
  exact {
    directory := fun i => by rw [State.cacheSet_cacheAccess, State.cacheSet_cacheAccess, hset]
    memReads := by rw [hcount]; rfl
    memWrites := by rw [hcount]; rfl
    cacheReads := by rw [hcount]; cases k <;> rfl
    cacheWrites := by rw [hcount]; cases k <;> rfl
    hits := by rw [hcount]; rfl
    misses := by rw [hcount]; rfl
    writeBacks := by rw [hcount]; rfl
    instFetches := by rw [hcount]; rfl
    branches := by rw [hcount]; rfl
    takenBranches := by rw [hcount]; rfl }

theorem State.load_faults (s : State) (d : RegIdx) {a : Word} (hout : ¬ inBounds a) :
    Faults .outOfBoundsAccess a s (s.load d a) := by
  rcases s.load_cases d a with ⟨hin, -⟩ | ⟨-, hload⟩
  · exact absurd hin hout
  · exact hload ▸ s.raise_faults _ _

theorem State.storeTo_faults (s : State) (d : RegIdx) {a : Word} (hout : ¬ inBounds a) :
    Faults .outOfBoundsAccess a s (s.storeTo d a) := by
  rcases s.storeTo_cases d a with ⟨hin, -⟩ | ⟨-, hstore⟩
  · exact absurd hin hout
  · exact hstore ▸ s.raise_faults _ _

/-! ## What an instruction does whose handler is one of these sequences -/

theorem computes_of_exec_writeReg {i : Instr} {d : RegIdx} {v : Word} {s : State}
    (hexec : exec i s = .next (s.writeReg d v)) : Computes i d v s :=
  ⟨_, hexec, s.writeReg_writesOnlyRegister d v⟩

/-- Memory is read first; the register write and the directory follow, and neither touches what the other does. -/
theorem loadsFrom_of_exec_load {i : Instr} {d : RegIdx} {a : Word} {s : State}
    (hexec : exec i s = .next (s.load d a)) : LoadsFrom i d a s := by
  intro hbound
  have hin := (inBounds_iff a).2 hbound
  rcases s.load_cases d a with ⟨-, hload⟩ | ⟨hout, -⟩
  · rw [hload] at hexec
    exact ⟨_, _, State.wordAt_of_inBounds hin, hexec, State.readReg_writeReg _ d _, ⟨rfl, rfl, rfl, rfl, rfl⟩,
      fun _ => rfl, State.cacheAccess_countsAccess a .read rfl rfl⟩
  · exact absurd hin hout

/-- Memory is written first, and the directory touches neither memory nor registers. -/
theorem storesTo_of_exec_storeTo {i : Instr} {d : RegIdx} {a : Word} {s : State}
    (hexec : exec i s = .next (s.storeTo d a)) : StoresTo i d a s := by
  intro hbound
  have hin := (inBounds_iff a).2 hbound
  rcases s.storeTo_cases d a with ⟨-, hstore⟩ | ⟨hout, -⟩
  · rw [hstore] at hexec
    exact ⟨_, hexec, s.wordAt_setWord_self _ hin rfl, fun _ hne => s.wordAt_setWord_of_ne _ hne, fun _ => rfl,
      ⟨rfl, rfl, rfl, rfl, rfl⟩, State.cacheAccess_countsAccess a .write rfl rfl⟩
  · exact absurd hin hout

end Sys2Proof.Machine
end

section
/-! The statements of 41_load_store.md: each form is its canonical word, its effective address and one sequence. -/

namespace Sys2Proof.Machine

/-- Settles O36: `ld` immediate is the load sequence at its effective address. -/
theorem loadImmediateRule : Obligations.LoadImmediateRule :=
  fun d s1 imm s => ⟨formatI_eq_wordWith _ d s1 imm,
    by rw [State.effectiveAddress_imm, BitVec.toNat_ofNat], loadsFrom_of_exec_load rfl⟩

/-- Settles O37: `ld` register is the load sequence at its effective address. -/
theorem loadRegisterRule : Obligations.LoadRegisterRule :=
  fun d s1 s2 s => ⟨formatT_eq_wordWith _ 0 d s1 s2,
    by rw [State.effectiveAddress_reg, BitVec.toNat_ofNat], loadsFrom_of_exec_load rfl⟩

/-- Settles O38: `ld` scaled is the load sequence at its effective address. -/
theorem loadScaledRule : Obligations.LoadScaledRule :=
  fun d s1 s2 s => ⟨formatT_eq_wordWith _ 1 d s1 s2,
    by rw [State.effectiveAddress_scaled, BitVec.toNat_ofNat], loadsFrom_of_exec_load rfl⟩

/-- Settles O39: `st` immediate is the store sequence at its effective address. -/
theorem storeImmediateRule : Obligations.StoreImmediateRule :=
  fun d s1 imm s => ⟨formatI_eq_wordWith _ d s1 imm,
    by rw [State.effectiveAddress_imm, BitVec.toNat_ofNat], storesTo_of_exec_storeTo rfl⟩

/-- Settles O40: `st` register is the store sequence at its effective address. -/
theorem storeRegisterRule : Obligations.StoreRegisterRule :=
  fun d s1 s2 s => ⟨formatT_eq_wordWith _ 0 d s1 s2,
    by rw [State.effectiveAddress_reg, BitVec.toNat_ofNat], storesTo_of_exec_storeTo rfl⟩

/-- Settles O41: `st` scaled is the store sequence at its effective address. -/
theorem storeScaledRule : Obligations.StoreScaledRule :=
  fun d s1 s2 s => ⟨formatT_eq_wordWith _ 1 d s1 s2,
    by rw [State.effectiveAddress_scaled, BitVec.toNat_ofNat], storesTo_of_exec_storeTo rfl⟩

/-- Settles O55: of the six forms each is a load or a store, and above `0x000FFFFF` either is a raise. -/
theorem loadAndStoreOutOfBounds : Obligations.LoadAndStoreOutOfBounds := by
  intro s d s1 s2 imm b i hform hbound
  have hout : ¬ inBounds (s.effectiveAddress s1 b) := fun hin => Nat.not_le.2 hbound ((inBounds_iff _).1 hin)
  rcases hform with ⟨rfl, rfl | rfl⟩ | ⟨rfl, rfl | rfl⟩ | ⟨rfl, rfl | rfl⟩
  · exact ⟨_, rfl, s.load_faults d hout⟩
  · exact ⟨_, rfl, s.storeTo_faults d hout⟩
  · exact ⟨_, rfl, s.load_faults d hout⟩
  · exact ⟨_, rfl, s.storeTo_faults d hout⟩
  · exact ⟨_, rfl, s.load_faults d hout⟩
  · exact ⟨_, rfl, s.storeTo_faults d hout⟩

/-- Settles O42: `lda` immediate writes its effective address to the register, unchecked. -/
theorem loadAddressImmediateRule : Obligations.LoadAddressImmediateRule :=
  fun d s1 imm s => ⟨formatI_eq_wordWith _ d s1 imm,
    computes_of_exec_writeReg (s.effectiveAddress_imm s1 imm ▸ rfl)⟩

/-- Settles O43: `lda` register writes its effective address to the register, unchecked. -/
theorem loadAddressRegisterRule : Obligations.LoadAddressRegisterRule :=
  fun d s1 s2 s => ⟨formatT_eq_wordWith _ 0 d s1 s2,
    computes_of_exec_writeReg (s.effectiveAddress_reg s1 s2 ▸ rfl)⟩

/-- Settles O44: `lda` scaled writes its effective address to the register, unchecked. -/
theorem loadAddressScaledRule : Obligations.LoadAddressScaledRule :=
  fun d s1 s2 s => ⟨formatT_eq_wordWith _ 1 d s1 s2,
    computes_of_exec_writeReg (s.effectiveAddress_scaled s1 s2 ▸ rfl)⟩

end Sys2Proof.Machine
end

section
/-! What the two arithmetic functions write: the sum or the difference of `x[s1]` and operand B, and both read as
numbers (42_arith.md R130). -/

namespace Sys2Proof.Machine

/-! ## The four forms as register writes -/

theorem exec_addImm (d s1 : RegIdx) (imm : Imm16) (s : State) :
    exec (.addImm d s1 imm) s = .next (s.writeReg d (s.readReg s1 + s.operandB (.imm imm))) := rfl

theorem exec_addReg (d s1 s2 : RegIdx) (s : State) :
    exec (.addReg d s1 s2) s = .next (s.writeReg d (s.readReg s1 + s.operandB (.reg s2))) := rfl

theorem exec_subImm (d s1 : RegIdx) (imm : Imm16) (s : State) :
    exec (.subImm d s1 imm) s = .next (s.writeReg d (s.readReg s1 - s.operandB (.imm imm))) := rfl

theorem exec_subReg (d s1 s2 : RegIdx) (s : State) :
    exec (.subReg d s1 s2) s = .next (s.writeReg d (s.readReg s1 - s.operandB (.reg s2))) := rfl

/-! ## The difference as an integer -/

/-- The wrapping difference is the integer difference modulo `2^32`: adding `b` to either gives `a`. -/
theorem sub_eq_ofInt (a b : Word) : a - b = BitVec.ofInt 32 (a.toNat - b.toNat) := by
  have ofInt_toNat (v : Word) : BitVec.ofInt 32 v.toNat = v := by
    rw [BitVec.ofInt_natCast, BitVec.ofNat_toNat, BitVec.setWidth_eq]
  have hsum : BitVec.ofInt 32 (a.toNat - b.toNat) + b = a :=
    calc BitVec.ofInt 32 (a.toNat - b.toNat) + b
        = BitVec.ofInt 32 (a.toNat - b.toNat) + BitVec.ofInt 32 b.toNat := by rw [ofInt_toNat b]
      _ = BitVec.ofInt 32 (a.toNat - b.toNat + b.toNat) := (BitVec.ofInt_add _ _).symm
      _ = a := by rw [Int.sub_add_cancel, ofInt_toNat]
  exact sub_eq_of_eq_add hsum.symm

/-- The immediate keeps its value, the extension being by zeros (decision D4; log 3). -/
theorem State.operandB_imm_toNat (s : State) (imm : Imm16) : (s.operandB (.imm imm)).toNat = imm.toNat := by
  rw [State.operandB_imm, BitVec.toNat_setWidth_of_le (by decide)]

theorem State.sub_operandB_imm (s : State) (a : Word) (imm : Imm16) :
    a - s.operandB (.imm imm) = BitVec.ofInt 32 (a.toNat - (imm.toNat : Int)) := by
  rw [sub_eq_ofInt, State.operandB_imm_toNat]

/-! ## A register read back right after its own write -/

theorem State.readReg_writeReg_self (s : State) (d : RegIdx) (v : Word) :
    (s.writeReg d v).readReg d = if d = 0 then 0 else v := by
  by_cases hd : d = 0
  · rw [if_pos hd, hd, State.readReg_zero]
  · rw [if_neg hd, State.readReg_writeReg, if_pos ⟨rfl, hd⟩]

end Sys2Proof.Machine
end

section
/-! The statements of 42_arith.md: each form is its canonical word and one register write. -/

namespace Sys2Proof.Machine

/-- Settles O59: a wrapping difference undoes the wrapping sum, and operand B is the same immediate both times. -/
theorem addThenSubRestores : Obligations.AddThenSubRestores := by
  intro d s1 k s
  refine ⟨_, _, exec_addImm d s1 k s, exec_subImm d d k _, ?_⟩
  rw [State.readReg_writeReg_self]
  by_cases hd : d = 0
  · rw [if_pos hd, if_pos hd]
  · rw [if_neg hd, if_neg hd, State.readReg_writeReg_self, if_neg hd, State.operandB_imm, State.operandB_imm,
      BitVec.add_sub_cancel]

/-- Settles O45: `add` immediate writes the sum that an effective address is. -/
theorem addImmediateRule : Obligations.AddImmediateRule :=
  fun d s1 imm s => ⟨formatI_eq_wordWith _ d s1 imm,
    s.effectiveAddress_imm s1 imm ▸ computes_of_exec_writeReg (exec_addImm d s1 imm s)⟩

/-- Settles O46: `add` register writes the sum that an effective address is. -/
theorem addRegisterRule : Obligations.AddRegisterRule :=
  fun d s1 s2 s => ⟨formatT_eq_wordWith _ 0 d s1 s2,
    s.effectiveAddress_reg s1 s2 ▸ computes_of_exec_writeReg (exec_addReg d s1 s2 s)⟩

/-- Settles O47: `sub` immediate writes the difference of `x[s1]` and the immediate. -/
theorem subImmediateRule : Obligations.SubImmediateRule :=
  fun d s1 imm s => ⟨formatI_eq_wordWith _ d s1 imm,
    s.sub_operandB_imm _ imm ▸ computes_of_exec_writeReg (exec_subImm d s1 imm s)⟩

/-- Settles O48: `sub` register writes the difference of `x[s1]` and `x[s2]`, in this order. -/
theorem subRegisterRule : Obligations.SubRegisterRule :=
  fun d s1 s2 s => ⟨formatT_eq_wordWith _ 0 d s1 s2,
    sub_eq_ofInt _ _ ▸ computes_of_exec_writeReg (exec_subReg d s1 s2 s)⟩

end Sys2Proof.Machine
end

section
/-! What a branch does in the terms of 43_branch.md: the canonical word of `br`, the branch counted and taken or not, and
the one encoding of a branch that is fatal. -/

namespace Sys2Proof

/-! ## Branch words (30_encoding.md R72, R83, R88) -/

theorem formatJ_eq_or (op : Opcode) (disp : Disp26) :
    formatJ op disp = op.setWidth 32 <<< 26 ||| disp.setWidth 32 :=
  (BitVec.setWidth_eq _).symm.trans (Machine.setWidth_append_eq_or op disp)

/-- The instructions that are no legal encoding of this machine are the two branches with a zero displacement. -/
theorem Instr.wellFormed_eq_false_iff {i : Instr} :
    i.wellFormed = false ↔ i = .br 0 ∨ ∃ mask s1, i = .bcnd mask s1 0 := by
  cases i with
  | rot => simp [Instr.wellFormed, Instr.wellFormedFor, Machine.params_rot0]
  | _ => simp [Instr.wellFormed, Instr.wellFormedFor]

/-- The dispatch selects a branch with a zero displacement all the same (30_encoding.md R83). -/
theorem decode_of_zeroDisplacement {w : Word}
    (h : (w.toNat / 2 ^ 26 = 0x30 ∧ w.toNat % 2 ^ 26 = 0) ∨ (w.toNat / 2 ^ 26 = 0x3A ∧ w.toNat % 2 ^ 16 = 0)) :
    ∃ i : Instr, decode w = .form i ∧ i.wellFormed = false := by
  rcases h with ⟨hop, hdisp⟩ | ⟨hop, hdisp⟩
  · have hzero : (extractFields w).disp26 = 0 := BitVec.eq_of_toNat_eq ((low_slice_toNat w 26).trans hdisp)
    exact ⟨.br 0, select_of_selectedBy opcDoc_admissible (.inl rfl) ⟨op_eq_iff.2 hop, hzero⟩,
      Instr.wellFormed_eq_false_iff.2 (.inl rfl)⟩
  · have hzero : (extractFields w).disp16 = 0 := BitVec.eq_of_toNat_eq ((low_slice_toNat w 16).trans hdisp)
    exact ⟨.bcnd _ _ 0, select_of_selectedBy opcDoc_admissible (.inl rfl) ⟨op_eq_iff.2 hop, rfl, rfl, hzero⟩,
      Instr.wellFormed_eq_false_iff.2 (.inr ⟨_, _, rfl⟩)⟩

/-- A word without an ignored bit is the canonical word of the instruction it selects (log 9). -/
theorem encode_of_decode {w : Word} {i : Instr} (hignored : i.ignoredBits = 0) (h : decode w = .form i) :
    encode i = w := by
  rw [← decode_eq_form_iff.1 h, hignored]
  exact BitVec.and_allOnes

end Sys2Proof

namespace Sys2Proof.Machine

/-! ## The two branches -/

theorem exec_br_of_ne_zero {disp : Disp26} (h : disp ≠ 0) (s : State) :
    exec (.br disp) s = .next (s.branch true (s.branchTarget (brOffset disp))) :=
  (execBr_eq disp s).trans (by rw [if_neg h])

theorem exec_bcnd_of_ne_zero (mask : CondMask) (s1 : RegIdx) {disp : Disp16} (h : disp ≠ 0) (s : State) :
    exec (.bcnd mask s1 disp) s =
      .next (s.branch (conditionHolds mask (s.readReg s1)) (s.branchTarget (bcndOffset disp))) :=
  (execBcnd_eq mask s1 disp s).trans (by rw [if_neg h])

theorem Counters.countBranch_eq (taken : Bool) (c : Counters) :
    c.countBranch taken =
      { c with branches := c.branches + 1, takenBranches := c.takenBranches + taken.toNat } := by
  cases taken <;> rfl

/-- An instruction that is no legal encoding is fatal in every state: no condition is looked at (43_branch.md R145). -/
theorem exec_faults_of_not_wellFormed {i : Instr} (h : i.wellFormed = false) (s : State) :
    ∃ t, exec i s = .next t ∧ Faults .invalidBranchEncoding (encode i) s t := by
  refine ⟨_, ?_, s.raise_faults _ _⟩
  rcases Instr.wellFormed_eq_false_iff.1 h with rfl | ⟨mask, s1, rfl⟩
  · exact execBr_eq 0 s
  · exact execBcnd_eq mask s1 0 s

end Sys2Proof.Machine
end

section
/-! The statements of 43_branch.md, each from the two branches and the encoding that is fatal. -/

namespace Sys2Proof.Machine

/-- Settles O49: `br` is a taken branch to its target, or the raise of its canonical word. -/
theorem branchRule : Obligations.BranchRule := by
  intro disp s
  refine ⟨formatJ_eq_or _ disp, fun hdisp => ?_, ?_⟩
  · exact ⟨_, exec_br_of_ne_zero hdisp s, s.branchTarget_brOffset disp, rfl, rfl, rfl, rfl, rfl,
      s.readReg_branch _ _, s.wordAt_branch _ _, s.cacheSet_branch _ _⟩
  · rintro rfl
    exact exec_faults_of_not_wellFormed (Instr.wellFormed_eq_false_iff.2 (.inl rfl)) s

/-- Settles O50: `bcnd` is a branch taken as the mask bit of the sign says, or the raise of its canonical word. -/
theorem conditionalBranchRule : Obligations.ConditionalBranchRule := by
  intro mask s1 disp s v taken
  have hword : ∀ n : Disp16, encode (.bcnd mask s1 n) = wordWith 0xE8000000 mask s1 (n.zeroExtend 32) :=
    formatI_eq_wordWith _ mask s1
  have htaken : conditionHolds mask (s.readReg s1) = taken := congrArg mask.getLsbD (conditionFlag_eq _)
  refine ⟨hword disp, fun hdisp => ?_, ?_⟩
  · have hexec := exec_bcnd_of_ne_zero mask s1 hdisp s
    rw [htaken, s.branchTarget_bcndOffset disp] at hexec
    exact ⟨_, hexec, rfl, s.counters.countBranch_eq taken, rfl, rfl, rfl, rfl,
      s.readReg_branch _ _, s.wordAt_branch _ _, s.cacheSet_branch _ _⟩
  · rintro rfl
    exact hword 0 ▸ exec_faults_of_not_wellFormed (Instr.wellFormed_eq_false_iff.2 (.inr ⟨_, _, rfl⟩)) s

/-- Settles O56: the word selects a branch that is no legal encoding, and it is that branch's canonical word. -/
theorem zeroDisplacementIsFatal : Obligations.ZeroDisplacementIsFatal := by
  intro s iw hrun hword hzero
  obtain ⟨i, hdec, hillegal⟩ := decode_of_zeroDisplacement hzero
  obtain ⟨t, hexec, hfaults⟩ := exec_faults_of_not_wellFormed hillegal s.afterFetch
  have hignored : i.ignoredBits = 0 := by
    rcases Instr.wellFormed_eq_false_iff.1 hillegal with rfl | ⟨mask, s1, rfl⟩ <;> rfl
  rw [encode_of_decode hignored hdec] at hfaults
  exact ⟨s.afterFetch, t, s.afterFetch_fetchStep, (step_of_form hrun hword hdec).trans hexec, hfaults⟩

end Sys2Proof.Machine
end

section
/-! What the four bit-field functions write: `x[s1]` shifted or rotated by the literal count, and the shifts read as
quotients and products by `2^n` (44_bitfield.md R150 to R154). -/

namespace Sys2Proof.Machine

/-! ## The canonical words as bit patterns (30_encoding.md R72, R88) -/

/-- Format B is format I with the secondary opcode and the count as its low half. -/
theorem formatB_eq_formatI (op2 : Opcode) (d s1 : RegIdx) (n : ShiftCount) :
    formatB op2 d s1 n = formatI opBitfield d s1 (op2 ++ (0 : BitVec 5) ++ n) := by
  unfold formatB formatI
  generalize opBitfield ++ d ++ s1 = high
  simp only [BitVec.append_assoc, BitVec.cast_eq]

/-- Low bits may stand with the opcode pattern. -/
theorem wordWith_or_low (pattern : Word) (d s1 : BitVec 5) (high low : Word) :
    wordWith pattern d s1 (high ||| low) = wordWith (pattern ||| high) d s1 low := by
  unfold wordWith
  generalize d.zeroExtend 32 <<< 21 = dest, s1.zeroExtend 32 <<< 16 = base
  ac_rfl

theorem formatB_eq_wordWith (op2 : Opcode) (d s1 : RegIdx) (n : ShiftCount) :
    formatB op2 d s1 n =
      wordWith (opBitfield.setWidth 32 <<< 26 ||| op2.setWidth 32 <<< 10) d s1 (n.setWidth 32) := by
  have hlow : (op2 ++ (0 : BitVec 5) ++ n).setWidth 32 = op2.setWidth 32 <<< 10 ||| n.setWidth 32 := by
    simp only [setWidth_append_eq_or, BitVec.shiftLeft_or_distrib, ← BitVec.shiftLeft_add]
    exact congrArg (· ||| n.setWidth 32) BitVec.or_zero
  rw [formatB_eq_formatI, formatI_eq_wordWith, hlow, wordWith_or_low]

/-! ## The four forms as register writes -/

theorem exec_ext (d s1 : RegIdx) (n : ShiftCount) (s : State) :
    exec (.ext d s1 n) s = .next (s.writeReg d ((s.readReg s1).sshiftRight n.toNat)) := rfl

theorem exec_extu (d s1 : RegIdx) (n : ShiftCount) (s : State) :
    exec (.extu d s1 n) s = .next (s.writeReg d (s.readReg s1 >>> n.toNat)) := rfl

theorem exec_mak (d s1 : RegIdx) (n : ShiftCount) (s : State) :
    exec (.mak d s1 n) s = .next (s.writeReg d (s.readReg s1 <<< n.toNat)) := rfl

theorem exec_rot (d s1 : RegIdx) (n : ShiftCount) (s : State) :
    exec (.rot d s1 n) s = .next (s.writeReg d (alu .ror (s.readReg s1) 0 n)) := rfl

/-! ## The shifts as quotients and products -/

/-- The arithmetic right shift rounds down, as integer division by a positive number does. -/
theorem sshiftRight_eq_ofInt_div (v : Word) (n : Nat) : v.sshiftRight n = BitVec.ofInt 32 (v.toInt / 2 ^ n) := by
  rw [BitVec.sshiftRight_eq, Int.shiftRight_eq_div_pow, Nat.cast_pow, Nat.cast_ofNat]

theorem ushiftRight_eq_ofNat_div (v : Word) (n : Nat) : v >>> n = BitVec.ofNat 32 (v.toNat / 2 ^ n) := by
  rw [← Nat.shiftRight_eq_div_pow, ← BitVec.toNat_ushiftRight, BitVec.ofNat_toNat, BitVec.setWidth_eq]

theorem shiftLeft_eq_ofNat_mul (v : Word) (n : Nat) : v <<< n = BitVec.ofNat 32 (v.toNat * 2 ^ n) := by
  apply BitVec.eq_of_toNat_eq
  rw [BitVec.toNat_shiftLeft, Nat.shiftLeft_eq, BitVec.toNat_ofNat]

/-! ## Two rotations in a row -/

/-- Bit `i` goes to `(i - n) mod 32` and from there to `(i - n - m) mod 32`, which is `i` again. -/
theorem alu_ror_ror_of_counts_cancel (a b b' : Word) {n m : ShiftCount} (h : (n.toNat + m.toNat) % 32 = 0) :
    alu .ror (alu .ror a b n) b' m = a := by
  apply BitVec.eq_of_getLsbD_eq
  intro i hi
  have hback : ((i + 32 - n.toNat) % 32 + 32 - m.toNat) % 32 = i := by omega
  calc (alu .ror (alu .ror a b n) b' m).getLsbD i
      = (alu .ror (alu .ror a b n) b' m).getLsbD (((i + 32 - n.toNat) % 32 + 32 - m.toNat) % 32) := by rw [hback]
    _ = (alu .ror a b n).getLsbD ((i + 32 - n.toNat) % 32) := alu_ror_bit _ _ m _ (Nat.mod_lt _ (by decide))
    _ = a.getLsbD i := alu_ror_bit _ _ n i hi

end Sys2Proof.Machine
end

section
/-! The statements of 44_bitfield.md: each form is its canonical word and one register write. -/

namespace Sys2Proof.Machine

/-- Settles O51: `ext` writes the floored quotient of the signed value. -/
theorem extRule : Obligations.ExtRule :=
  fun d s1 n s => ⟨formatB_eq_wordWith _ d s1 n,
    sshiftRight_eq_ofInt_div _ _ ▸ computes_of_exec_writeReg (exec_ext d s1 n s)⟩

/-- Settles O52: `extu` writes the quotient of the unsigned value. -/
theorem extuRule : Obligations.ExtuRule :=
  fun d s1 n s => ⟨formatB_eq_wordWith _ d s1 n,
    ushiftRight_eq_ofNat_div _ _ ▸ computes_of_exec_writeReg (exec_extu d s1 n s)⟩

/-- Settles O53: `mak` writes the product, modulo `2^32`. -/
theorem makRule : Obligations.MakRule :=
  fun d s1 n s => ⟨formatB_eq_wordWith _ d s1 n,
    shiftLeft_eq_ofNat_mul _ _ ▸ computes_of_exec_writeReg (exec_mak d s1 n s)⟩

/-- Settles O54: `rot` writes the value whose bits are those of `x[s1]` moved down by the count. -/
theorem rotRule : Obligations.RotRule :=
  fun d s1 n s => ⟨formatB_eq_wordWith _ d s1 n, _, computes_of_exec_writeReg (exec_rot d s1 n s),
    alu_ror_bit _ _ n⟩

/-- Settles O60: the second rotation reads what the first one wrote, and the two counts cancel. -/
theorem rotateThereAndBack : Obligations.RotateThereAndBack := by
  intro d s1 n m s hcounts hd
  refine ⟨_, _, exec_rot d s1 n s, exec_rot d d m _, ?_⟩
  rw [State.readReg_writeReg_self, if_neg hd, State.readReg_writeReg_self, if_neg hd,
    alu_ror_ror_of_counts_cancel _ _ _ hcounts]

end Sys2Proof.Machine
end

section
/-! What one access makes of the set it selects: the way it ends in, what the other way keeps, and what becomes of the
laws of the set, of its dirty lines and of the two lines used last. -/

namespace Sys2Proof.Machine

/-! ## The two ways -/

theorem WayIdx.eq_or_eq_other (v w : WayIdx) : v = w ∨ v = w.other := by
  cases v <;> cases w <;> simp [WayIdx.other]

@[simp] theorem WayIdx.other_other (w : WayIdx) : w.other.other = w := by cases w <;> rfl

theorem WayIdx.other_ne (w : WayIdx) : w.other ≠ w := by cases w <;> simp [WayIdx.other]

/-- A set is replaced way by way. -/
theorem CacheSet.use_way (c : CacheSet) (w : WayIdx) (l : CacheWay) (v : WayIdx) :
    (c.use w l).way v = if v = w then l else c.way v := by
  cases v <;> cases w <;> rfl

theorem CacheWay.holds_iff {l : CacheWay} {t : Tag} : l.holds t = true ↔ l.valid = true ∧ l.tag = t := by
  simp [CacheWay.holds]

/-! ## Hit and miss (45_cache_directory.md R167, R168) -/

/-- The probe finds the way that holds the line, way 0 first. -/
theorem CacheSet.probe_eq_some {c : CacheSet} {t : Tag} {w : WayIdx} (hw : (c.way w).holds t = true)
    (hfirst : w = .way1 → ¬ (c.way .way0).holds t = true) : c.probe t = some w := by
  cases w with
  | way0 => exact if_pos hw
  | way1 => exact (if_neg (hfirst rfl)).trans (if_pos hw)

theorem CacheSet.access_of_probe_eq_some {c : CacheSet} {t : Tag} {w : WayIdx} (h : c.probe t = some w)
    (k : AccessKind) : c.access t k = (c.use w ((c.way w).dirtiedBy k), .hit) := by
  simp only [CacheSet.access, h]

/-- An access hits exactly when one of the ways holds the line. -/
theorem CacheSet.access_hit_iff (c : CacheSet) (t : Tag) (k : AccessKind) :
    (c.access t k).2 = .hit ↔ ∃ w, (c.way w).holds t = true := by
  simp only [CacheWay.holds_iff]
  rcases c.access_cases t k with ⟨w, -, hvalid, htag, heq⟩ | ⟨-, hnone, -, hresult⟩
  · exact ⟨fun _ => ⟨w, hvalid, htag⟩, fun _ => by rw [heq]⟩
  · refine ⟨fun hhit => ?_, fun ⟨w, hvalid, htag⟩ => absurd htag (hnone w hvalid)⟩
    rw [hresult] at hhit
    split at hhit <;> cases hhit

/-! ## The victim of a miss (45_cache_directory.md R169, R170) -/

theorem CacheSet.victim_of_way0_invalid {c : CacheSet} (h0 : c.way0.valid = false) : c.victim = .way0 := if_pos h0

theorem CacheSet.victim_of_way1_invalid {c : CacheSet} (h0 : c.way0.valid = true) (h1 : c.way1.valid = false) :
    c.victim = .way1 :=
  (if_neg (by simp [h0])).trans (if_pos h1)

theorem CacheSet.victim_of_both_valid {c : CacheSet} (h0 : c.way0.valid = true) (h1 : c.way1.valid = true) :
    c.victim = c.lastUsedWay.other :=
  (if_neg (by simp [h0])).trans (if_neg (by simp [h1]))

/-- A line in the way last used is never the one evicted. -/
theorem CacheSet.victim_ne_lastUsedWay {c : CacheSet} (h : (c.way c.lastUsedWay).valid = true) :
    c.victim ≠ c.lastUsedWay := by
  intro hlast
  rw [← hlast] at h
  cases h0 : c.way0.valid with
  | false =>
    rw [CacheSet.victim_of_way0_invalid h0] at h
    cases h0.symm.trans h
  | true =>
    cases h1 : c.way1.valid with
    | false =>
      rw [CacheSet.victim_of_way1_invalid h0 h1] at h
      cases h1.symm.trans h
    | true => exact WayIdx.other_ne _ ((CacheSet.victim_of_both_valid h0 h1).symm.trans hlast)

/-! ## How an access leaves the two ways (45_cache_directory.md R171, R172, R175 item 5) -/

/-- The line of an access is resident after it, in the way last used. -/
theorem CacheSet.access_used_holds (c : CacheSet) (t : Tag) (k : AccessKind) :
    ((c.access t k).1.way (c.access t k).1.lastUsedWay).holds t = true := by
  rw [CacheWay.holds_iff]
  rcases c.access_cases t k with ⟨w, -, hvalid, htag, heq⟩ | ⟨-, -, heq, -⟩
  · simp [heq, hvalid, htag]
  · simp [heq]

theorem CacheSet.access_way_other (c : CacheSet) (t : Tag) (k : AccessKind) :
    (c.access t k).1.way (c.access t k).1.lastUsedWay.other = c.way (c.access t k).1.lastUsedWay.other := by
  rcases c.access_cases t k with ⟨w, -, -, -, heq⟩ | ⟨-, -, heq, -⟩ <;> simp [heq]

theorem CacheSet.access_write_dirty (c : CacheSet) (t : Tag) :
    ((c.access t .write).1.way (c.access t .write).1.lastUsedWay).dirty = true := by
  rcases c.access_cases t .write with ⟨w, -, -, -, heq⟩ | ⟨-, -, heq, -⟩ <;> simp [heq]

theorem CacheSet.access_read_dirty_of_hit {c : CacheSet} {t : Tag} (h : (c.access t .read).2 = .hit) (v : WayIdx) :
    ((c.access t .read).1.way v).dirty = (c.way v).dirty := by
  rcases c.access_cases t .read with ⟨w, -, -, -, heq⟩ | ⟨-, hnone, -, -⟩
  · rw [heq, CacheSet.use_way]
    split
    · next hv => rw [hv, CacheWay.dirtiedBy_read]
    · rfl
  · obtain ⟨w, hw⟩ := (c.access_hit_iff t .read).1 h
    obtain ⟨hvalid, htag⟩ := CacheWay.holds_iff.1 hw
    exact absurd htag (hnone w hvalid)

theorem CacheSet.access_read_dirty_of_miss {c : CacheSet} {t : Tag} (h : (c.access t .read).2 ≠ .hit) :
    ((c.access t .read).1.way (c.access t .read).1.lastUsedWay).dirty = false := by
  rcases c.access_cases t .read with ⟨w, -, -, -, heq⟩ | ⟨-, -, heq, -⟩
  · exact absurd (congrArg Prod.snd heq) h
  · simp [heq]

/-- Nothing invalidates a line (45_cache_directory.md R175 item 3, R177). -/
theorem CacheSet.access_keeps_valid (c : CacheSet) (t : Tag) (k : AccessKind) {v : WayIdx}
    (h : (c.way v).valid = true) : ((c.access t k).1.way v).valid = true := by
  rcases v.eq_or_eq_other (c.access t k).1.lastUsedWay with hv | hv
  · rw [hv]
    exact (CacheWay.holds_iff.1 (c.access_used_holds t k)).1
  · rw [hv, c.access_way_other, ← hv]
    exact h

/-! ## The laws of a set (45_cache_directory.md R175 items 1, 2 and 4) -/

/-- Way 0 fills first: where way 1 is not valid before way 0, way 0 is valid after any access. -/
theorem CacheSet.access_way0_valid {c : CacheSet} (h : c.way1.valid = true → c.way0.valid = true) (t : Tag)
    (k : AccessKind) : (c.access t k).1.way0.valid = true := by
  by_cases h0 : c.way0.valid = true
  · exact c.access_keeps_valid t k (v := .way0) h0
  · have h1 : ¬ c.way1.valid = true := fun h1 => h0 (h h1)
    rcases c.access_cases t k with ⟨w, -, hvalid, -, -⟩ | ⟨-, -, heq, -⟩
    · cases w with
      | way0 => exact absurd hvalid h0
      | way1 => exact absurd hvalid h1
    · rw [heq, CacheSet.victim_of_way0_invalid (Bool.eq_false_iff.2 h0)]
      exact CacheWay.dirtiedBy_valid _ k

/-- After an access no other valid way holds its line: a hit leaves the tags, and a miss found the line nowhere. -/
theorem CacheSet.access_other_tag_ne {c : CacheSet}
    (h : c.way0.valid = true → c.way1.valid = true → c.way0.tag ≠ c.way1.tag) (t : Tag) (k : AccessKind)
    (hvalid : (c.way (c.access t k).1.lastUsedWay.other).valid = true) :
    (c.way (c.access t k).1.lastUsedWay.other).tag ≠ t := by
  rcases c.access_cases t k with ⟨w, -, hw, htag, heq⟩ | ⟨-, hnone, -, -⟩
  · rw [heq, CacheSet.use_lastUsedWay] at hvalid ⊢
    cases w with
    | way0 => exact fun hother => h hw hvalid (htag.trans hother.symm)
    | way1 => exact fun hother => h hvalid hw (hother.trans htag.symm)
  · exact hnone _ hvalid

/-- A way ends dirty only where it is the line of the access, or was dirty before. -/
theorem CacheSet.Lawful.access {c : CacheSet} (hc : c.Lawful) {t : Tag} (ht : t.toNat ≤ 0x7FF) (k : AccessKind) :
    (c.access t k).1.Lawful := by
  obtain ⟨hvalid, htag⟩ := CacheWay.holds_iff.1 (c.access_used_holds t k)
  have hother := c.access_way_other t k
  have hne := CacheSet.access_other_tag_ne hc.tags_differ t k
  rw [← hother] at hne
  exact {
    dirty_valid := fun w hdirty => by
      rcases w.eq_or_eq_other (c.access t k).1.lastUsedWay with hw | hw
      · rw [hw]
        exact hvalid
      · rw [hw, hother] at hdirty ⊢
        exact hc.dirty_valid _ hdirty
    tags_differ := fun h0 h1 => by
      cases hlast : (c.access t k).1.lastUsedWay with
      | way0 =>
        rw [hlast] at htag hne
        exact fun heq => hne h1 (heq.symm.trans htag)
      | way1 =>
        rw [hlast] at htag hne
        exact fun heq => hne h0 (heq.trans htag)
    way0_first := fun _ => CacheSet.access_way0_valid hc.way0_first t k
    used_valid := fun _ => hvalid
    tag_in_bounds := fun w hw => by
      rcases w.eq_or_eq_other (c.access t k).1.lastUsedWay with hlast | hlast
      · rw [hlast, htag]
        exact ht
      · rw [hlast, hother] at hw ⊢
        exact hc.tag_in_bounds _ hw }

/-! ## The dirty lines of a set (45_cache_directory.md R171, R172, R175 item 6) -/

theorem CacheSet.dirtyCount_use (c : CacheSet) (w : WayIdx) (l : CacheWay) :
    (c.use w l).dirtyCount + (c.way w).dirty.toNat = c.dirtyCount + l.dirty.toNat := by
  cases w <;> simp only [CacheSet.dirtyCount, CacheSet.use, CacheSet.way] <;> omega

/-- What an access adds to the lines written back and to the lines dirty it owes to being a `Write`: a line written
back was dirty, and the line installed in its place is clean. -/
theorem CacheSet.access_writeBack_add_dirtyCount_le (c : CacheSet) (t : Tag) (k : AccessKind) :
    (if (c.access t k).2 = .missWithWriteBack then 1 else 0) + (c.access t k).1.dirtyCount ≤
      c.dirtyCount + (if k = .write then 1 else 0) := by
  have marked : ∀ l : CacheWay, (l.dirtiedBy k).dirty.toNat ≤ l.dirty.toNat + (if k = .write then 1 else 0) := by
    intro l
    cases k with
    | read => exact Nat.le_add_right _ _
    | write => exact Nat.le_add_left _ _
  rcases c.access_cases t k with ⟨w, -, -, -, heq⟩ | ⟨-, -, heq, hresult⟩
  · have huse := c.dirtyCount_use w ((c.way w).dirtiedBy k)
    have hmark := marked (c.way w)
    simp only [heq, reduceCtorEq, if_false]
    omega
  · have huse := c.dirtyCount_use c.victim ((CacheWay.installed t).dirtiedBy k)
    have hmark := marked (CacheWay.installed t)
    have hback : (if (c.access t k).2 = .missWithWriteBack then 1 else 0) ≤ (c.way c.victim).dirty.toNat := by
      rw [hresult]
      cases (c.way c.victim).valid <;> cases (c.way c.victim).dirty <;> simp
    rw [CacheWay.installed_dirty, Bool.toNat_false] at hmark
    rw [heq]
    omega

/-! ## The two lines used last (45_cache_directory.md R176) -/

/-- The set holds line `t` in the way last used and line `u` in the other: `u` is evicted next. -/
structure CacheSet.RecentPair (c : CacheSet) (t u : Tag) : Prop where
  used : (c.way c.lastUsedWay).holds t = true
  unused : (c.way c.lastUsedWay.other).holds u = true

/-- An access to any line but the one last used ends in the other way. -/
theorem CacheSet.access_lastUsedWay_of_ne {c : CacheSet} {t u : Tag} (hused : (c.way c.lastUsedWay).holds t = true)
    (hne : t ≠ u) (k : AccessKind) :
    (c.access u k).1.lastUsedWay = c.lastUsedWay.other := by
  obtain ⟨hvalid, htag⟩ := CacheWay.holds_iff.1 hused
  rcases c.access_cases u k with ⟨w, -, -, hw, heq⟩ | ⟨-, -, heq, -⟩
  · rw [heq, CacheSet.use_lastUsedWay]
    refine (w.eq_or_eq_other c.lastUsedWay).resolve_left fun hlast => hne ?_
    rw [← htag, ← hlast, hw]
  · rw [heq, CacheSet.use_lastUsedWay]
    exact (c.victim.eq_or_eq_other c.lastUsedWay).resolve_left (CacheSet.victim_ne_lastUsedWay hvalid)

/-- The line last used stays, and is the one to be evicted next. -/
theorem CacheSet.recentPair_access {c : CacheSet} {t u : Tag} (hused : (c.way c.lastUsedWay).holds t = true)
    (hne : t ≠ u) (k : AccessKind) :
    (c.access u k).1.RecentPair u t where
  used := c.access_used_holds u k
  unused := by
    rw [c.access_way_other, CacheSet.access_lastUsedWay_of_ne hused hne, WayIdx.other_other]
    exact hused

namespace CacheSet.RecentPair
variable {c : CacheSet} {t u : Tag} (h : c.RecentPair t u)
include h

theorem access {x : Tag} (hne : t ≠ x) (k : AccessKind) : (c.access x k).1.RecentPair x t :=
  CacheSet.recentPair_access h.used hne k

theorem access_hit_iff (x : Tag) (k : AccessKind) : (c.access x k).2 = .hit ↔ x = t ∨ x = u := by
  rw [CacheSet.access_hit_iff]
  constructor
  · rintro ⟨w, hw⟩
    have htag := (CacheWay.holds_iff.1 hw).2
    rcases w.eq_or_eq_other c.lastUsedWay with hlast | hlast
    · exact .inl (by rw [← htag, hlast, (CacheWay.holds_iff.1 h.used).2])
    · exact .inr (by rw [← htag, hlast, (CacheWay.holds_iff.1 h.unused).2])
  · rintro (rfl | rfl)
    · exact ⟨_, h.used⟩
    · exact ⟨_, h.unused⟩

end CacheSet.RecentPair

/-- An empty set fills way 0 and then way 1, and neither access writes a line back. -/
theorem CacheSet.empty_two_accesses {t u : Tag} (hne : t ≠ u) (k k' : AccessKind) :
    (CacheSet.empty.access t k).2 = .miss ∧ (CacheSet.empty.access t k).1.lastUsedWay = .way0 ∧
      ((CacheSet.empty.access t k).1.access u k').2 = .miss ∧
      ((CacheSet.empty.access t k).1.access u k').1.lastUsedWay = .way1 := by
  have hused := CacheSet.empty.access_used_holds t k
  refine ⟨rfl, rfl, ?_, CacheSet.access_lastUsedWay_of_ne hused hne k'⟩
  have hvictim : (CacheSet.empty.access t k).1.victim = .way1 :=
    CacheSet.victim_of_way1_invalid (CacheWay.holds_iff.1 hused).1 rfl
  rcases (CacheSet.empty.access t k).1.access_cases u k' with ⟨w, -, hw, htag, -⟩ | ⟨-, -, -, hresult⟩
  · cases w with
    | way0 => exact absurd ((CacheWay.holds_iff.1 hused).2.symm.trans htag) hne
    | way1 => cases hw
  · rw [hresult, hvictim]
    rfl

end Sys2Proof.Machine
end

section
/-! What one access, and what one step, makes of the directory of a state and of its counters. -/

namespace Sys2Proof.Machine

/-! ## The set an address selects -/

theorem State.cacheSet_cacheAccess_of_eq (s : State) {a : Word} {i : SetIdx} (h : setIndex a = i) (k : AccessKind) :
    (s.cacheAccess a k).cacheSet i = ((s.cacheSet i).access (lineTag a) k).1 :=
  (s.cacheSet_cacheAccess a k i).trans (if_pos h.symm)

theorem State.cacheSet_cacheAccess_of_ne (s : State) {a : Word} {i : SetIdx} (h : i ≠ setIndex a) (k : AccessKind) :
    (s.cacheAccess a k).cacheSet i = s.cacheSet i :=
  (s.cacheSet_cacheAccess a k i).trans (if_neg h)

theorem State.accessResult_of_eq (s : State) {a : Word} {i : SetIdx} (h : setIndex a = i) (k : AccessKind) :
    s.accessResult a k = ((s.cacheSet i).access (lineTag a) k).2 := by
  rw [State.accessResult, h]

/-- Addresses in one 8-byte line select one set and one tag (45_cache_directory.md R161). -/
theorem setIndex_eq_and_lineTag_eq_of_sameLine {a b : Word} (h : a.toNat / 8 = b.toNat / 8) :
    setIndex a = setIndex b ∧ lineTag a = lineTag b := by
  constructor
  · apply BitVec.eq_of_toNat_eq
    rw [setIndex_toNat, setIndex_toNat, h]
  · apply BitVec.eq_of_toNat_eq
    rw [lineTag_toNat, lineTag_toNat]
    omega

theorem lineTag_le_of_inBounds {a : Word} (h : inBounds a) : (lineTag a).toNat ≤ 0x7FF := by
  have ha := (inBounds_iff a).1 h
  rw [lineTag_toNat]
  omega

/-! ## The counters of an access, by its result (45_cache_directory.md R165, R166) -/

theorem Counters.countAccess_hit (c : Counters) (k : AccessKind) :
    (c.countAccess k .hit).hits = c.hits + 1 ∧ (c.countAccess k .hit).misses = c.misses ∧
      (c.countAccess k .hit).writeBacks = c.writeBacks := ⟨rfl, rfl, rfl⟩

theorem Counters.countAccess_miss (c : Counters) (k : AccessKind) {r : AccessResult} (h : r ≠ .hit) :
    (c.countAccess k r).misses = c.misses + 1 ∧ (c.countAccess k r).hits = c.hits := by
  simp [Counters.countAccess, h]

theorem Counters.countAccess_writeBacks (c : Counters) (k : AccessKind) (r : AccessResult) :
    (c.countAccess k r).writeBacks = c.writeBacks + (if r = .missWithWriteBack then 1 else 0) := by
  cases r <;> rfl

theorem Counters.countAccess_cacheReads (c : Counters) (k : AccessKind) (r : AccessResult) :
    (c.countAccess k r).cacheReads = c.cacheReads + (if k = .read then 1 else 0) := by
  cases k <;> rfl

theorem Counters.countAccess_cacheWrites (c : Counters) (k : AccessKind) (r : AccessResult) :
    (c.countAccess k r).cacheWrites = c.cacheWrites + (if k = .write then 1 else 0) := by
  cases k <;> rfl

/-! ## The invariants of the directory -/

theorem State.directoryLawful_cacheAccess {s : State} (hs : s.directoryLawful) {a : Word} (ha : inBounds a)
    (k : AccessKind) : (s.cacheAccess a k).directoryLawful := by
  intro i
  by_cases hi : i = setIndex a
  · rw [s.cacheSet_cacheAccess_of_eq hi.symm]
    exact (hs i).access (lineTag_le_of_inBounds ha) k
  · rw [s.cacheSet_cacheAccess_of_ne hi]
    exact hs i

theorem State.cacheAccess_keeps_valid (s : State) (a : Word) (k : AccessKind) {i : SetIdx} {w : WayIdx}
    (h : ((s.cacheSet i).way w).valid = true) : (((s.cacheAccess a k).cacheSet i).way w).valid = true := by
  by_cases hi : i = setIndex a
  · rw [s.cacheSet_cacheAccess_of_eq hi.symm]
    exact CacheSet.access_keeps_valid _ _ k h
  · rw [s.cacheSet_cacheAccess_of_ne hi]
    exact h

/-- One element replaced, the sum changes by what it changes. -/
theorem sum_set_add_getElem (l : List Nat) {n : Nat} (hn : n < l.length) (x : Nat) :
    (l.set n x).sum + l[n] = l.sum + x := by
  have hsame := l.sum_set n l[n]
  rw [List.set_getElem_self] at hsame
  rw [l.sum_set n x, hsame, if_pos hn, if_pos hn]
  omega

theorem State.dirtyLines_cacheAccess (s : State) (a : Word) (k : AccessKind) :
    (s.cacheAccess a k).dirtyLines + (s.cacheSet (setIndex a)).dirtyCount =
      s.dirtyLines + ((s.cacheSet (setIndex a)).access (lineTag a) k).1.dirtyCount := by
  have hlength : (setIndex a).toNat < (s.cache.toList.map CacheSet.dirtyCount).length := by
    simpa using (setIndex a).isLt
  have hsum := sum_set_add_getElem _ hlength ((s.cacheSet (setIndex a)).access (lineTag a) k).1.dirtyCount
  simpa [State.dirtyLines, State.cacheAccess, State.cacheSet, Vector.toList_set, List.map_set] using hsum

theorem State.writeBacksCovered_cacheAccess {s : State} (hs : s.writeBacksCovered) (a : Word) (k : AccessKind) :
    (s.cacheAccess a k).writeBacksCovered := by
  have hset := (s.cacheSet (setIndex a)).access_writeBack_add_dirtyCount_le (lineTag a) k
  have hlines := s.dirtyLines_cacheAccess a k
  rw [← s.accessResult_of_eq rfl] at hset
  rw [State.writeBacksCovered] at hs ⊢
  rw [State.cacheAccess_counters, Counters.countAccess_writeBacks, Counters.countAccess_cacheWrites]
  omega

/-! ## What a step does to the directory -/

/-- The directory, the count of write-backs and the count of `Write` accesses are as before. -/
structure SameDirectoryRecord (s t : State) : Prop where
  cache : t.cache = s.cache
  writeBacks : t.counters.writeBacks = s.counters.writeBacks
  cacheWrites : t.counters.cacheWrites = s.counters.cacheWrites

theorem SameDirectoryRecord.cacheSet {s t : State} (h : SameDirectoryRecord s t) (i : SetIdx) :
    t.cacheSet i = s.cacheSet i := State.cacheSet_congr h.cache i

theorem SameDirectoryRecord.directoryLawful {s t : State} (h : SameDirectoryRecord s t) (hs : s.directoryLawful) :
    t.directoryLawful := fun i => h.cacheSet i ▸ hs i

theorem SameDirectoryRecord.writeBacksCovered {s t : State} (h : SameDirectoryRecord s t)
    (hs : s.writeBacksCovered) : t.writeBacksCovered := by
  rw [State.writeBacksCovered, State.dirtyLines] at hs ⊢
  rwa [h.cache, h.writeBacks, h.cacheWrites]

/-- A step reaches the directory by at most one access, its last effect, at an address in bounds. -/
theorem step_directory {s t : State} (h : step s = .next t) :
    SameDirectoryRecord s t ∨ ∃ u a k, t = u.cacheAccess a k ∧ inBounds a ∧ SameDirectoryRecord s u := by
  rcases step_cases h with ⟨-, rfl⟩ | ⟨-, -, rfl⟩ | ⟨iw, -, -, -, rfl⟩ | ⟨iw, i, -, -, -, hexec⟩
  · exact .inl ⟨rfl, rfl, rfl⟩
  · exact .inl ⟨rfl, rfl, rfl⟩
  · exact .inl ⟨rfl, rfl, rfl⟩
  · cases effect_of_exec hexec with
    | loaded _ _ _ _ bounds => exact .inr ⟨_, _, .read, rfl, bounds, rfl, rfl, rfl⟩
    | stored _ _ _ _ bounds => exact .inr ⟨_, _, .write, rfl, bounds, rfl, rfl, rfl⟩
    | halted => exact .inl ⟨rfl, rfl, rfl⟩
    | accessFault => exact .inl ⟨rfl, rfl, rfl⟩
    | computed => exact .inl ⟨rfl, rfl, rfl⟩
    | branched => exact .inl ⟨rfl, rfl, rfl⟩
    | branchFault => exact .inl ⟨rfl, rfl, rfl⟩

end Sys2Proof.Machine
end

section
/-! The statements of 45_cache_directory.md, each from the lemmas on one access within its set. -/

namespace Sys2Proof.Machine

/-- Settles O23: a step makes at most one access, and an access to an in-bounds address keeps the laws of its set. -/
theorem stepKeepsDirectoryLawful : Obligations.StepKeepsDirectoryLawful := by
  intro s t hs h
  rcases step_directory h with hsame | ⟨u, a, k, rfl, hin, hsame⟩
  · exact ⟨hsame.directoryLawful hs, fun i w hv => by rwa [hsame.cacheSet]⟩
  · exact ⟨State.directoryLawful_cacheAccess (hsame.directoryLawful hs) hin k,
      fun i w hv => u.cacheAccess_keeps_valid a k (by rwa [hsame.cacheSet])⟩

/-- Settles O25: a line written back is a dirty line less, and only a `Write` makes a line dirty. -/
theorem stepKeepsWriteBacksCovered : Obligations.StepKeepsWriteBacksCovered := by
  intro s t hs h
  rcases step_directory h with hsame | ⟨u, a, k, rfl, -, hsame⟩
  · exact hsame.writeBacksCovered hs
  · exact State.writeBacksCovered_cacheAccess (hsame.writeBacksCovered hs) a k

/-- Settles O29: the probe finds way `w`, and using it again leaves its valid bit and its tag. -/
theorem directoryHitKeepsTheLine : Obligations.DirectoryHitKeepsTheLine := by
  intro s a k w c c' holdsLine hw hfirst
  have hprobe : c.probe (lineTag a) = some w :=
    CacheSet.probe_eq_some (CacheWay.holds_iff.2 hw) fun h h0 => hfirst h (CacheWay.holds_iff.1 h0)
  have haccess := CacheSet.access_of_probe_eq_some hprobe k
  have hresult : s.accessResult a k = .hit := congrArg Prod.snd haccess
  have hc' : c' = c.use w ((c.way w).dirtiedBy k) :=
    (s.cacheSet_cacheAccess_of_eq rfl k).trans (congrArg Prod.fst haccess)
  rw [hc', State.cacheAccess_counters, hresult]
  refine ⟨rfl, c.use_lastUsedWay _ _, fun w' => ?_, Counters.countAccess_hit _ k⟩
  rw [CacheSet.use_way]
  split
  · next h => rw [h, CacheWay.dirtiedBy_valid, CacheWay.dirtiedBy_tag]; exact ⟨rfl, rfl⟩
  · exact ⟨rfl, rfl⟩

/-- Settles O30: the way replaced is the victim, and the result says whether it was valid and dirty. -/
theorem directoryMissReplacesTheVictim : Obligations.DirectoryMissReplacesTheVictim := by
  intro s a k hnone c c' evictsDirty
  rcases c.access_cases (lineTag a) k with ⟨w, -, hvalid, htag, -⟩ | ⟨-, -, heq, hresult⟩
  · exact absurd htag (hnone w hvalid)
  · have hc' : c' = c.use c.victim ((CacheWay.installed (lineTag a)).dirtiedBy k) :=
      (s.cacheSet_cacheAccess_of_eq rfl k).trans heq
    replace hresult : s.accessResult a k = if evictsDirty c.victim then .missWithWriteBack else .miss := by
      rw [s.accessResult_of_eq rfl, hresult]
      simp only [evictsDirty, Bool.and_eq_true]
    have hmiss : s.accessResult a k ≠ .hit := by rw [hresult]; split <;> simp
    have hcount := Counters.countAccess_miss s.counters k hmiss
    refine ⟨hcount.1, hcount.2, c.victim, CacheSet.victim_of_way0_invalid, CacheSet.victim_of_way1_invalid,
      fun h0 h1 => CacheSet.victim_of_both_valid h0 h1 ▸ WayIdx.other_ne _, fun hdirty => ?_, fun hclean => ?_, ?_⟩
    · rw [if_pos hdirty] at hresult
      exact ⟨hresult, by rw [State.cacheAccess_counters, hresult, Counters.countAccess_writeBacks, if_pos rfl]⟩
    · rw [if_neg hclean] at hresult
      exact ⟨hresult, by rw [State.cacheAccess_counters, hresult, Counters.countAccess_writeBacks]; rfl⟩
    · rw [hc']
      simp

/-- Settles O31: a `Write` marks the way it ends in, a `Read` hit marks nothing, and a line installed is clean. -/
theorem directoryWriteDirtiesAndReadDoesNot : Obligations.DirectoryWriteDirtiesAndReadDoesNot := by
  intro s a c w r
  have hw : w = (c.access (lineTag a) .write).1 := s.cacheSet_cacheAccess_of_eq rfl .write
  have hr : r = (c.access (lineTag a) .read).1 := s.cacheSet_cacheAccess_of_eq rfl .read
  rw [hw, hr]
  exact ⟨c.access_write_dirty _, congrArg _ (c.access_way_other _ .write), CacheSet.access_read_dirty_of_hit,
    fun hmiss => ⟨CacheSet.access_read_dirty_of_miss hmiss, congrArg _ (c.access_way_other _ .read)⟩⟩

/-- Settles O32: an access replaces one set and counts by its kind and by its result. -/
theorem directoryAccessTouchesOneSet : Obligations.DirectoryAccessTouchesOneSet := by
  intro s a k t
  have hpair : (t.counters.hits = s.counters.hits + 1 ∧ t.counters.misses = s.counters.misses) ∨
      (t.counters.hits = s.counters.hits ∧ t.counters.misses = s.counters.misses + 1) := by
    by_cases hhit : s.accessResult a k = .hit
    · rw [State.cacheAccess_counters, hhit]
      obtain ⟨hhits, hmisses, -⟩ := s.counters.countAccess_hit k
      exact .inl ⟨hhits, hmisses⟩
    · obtain ⟨hmisses, hhits⟩ := s.counters.countAccess_miss k hhit
      exact .inr ⟨hhits, hmisses⟩
  refine ⟨fun i hi => s.cacheSet_cacheAccess_of_ne (fun h => hi ?_) k, s.counters.countAccess_cacheReads k _,
    s.counters.countAccess_cacheWrites k _, hpair, rfl, rfl, rfl, rfl, rfl, fun _ => rfl, fun _ => rfl,
    ⟨rfl, rfl, rfl, rfl, rfl⟩⟩
  rw [h, setIndex_toNat]

/-- Settles O33: the second address selects the same set and the same tag, which the first access left resident. -/
theorem sameLineHitsAfterAnAccess : Obligations.SameLineHitsAfterAnAccess := by
  intro s a b k k' hline
  obtain ⟨hindex, htag⟩ := setIndex_eq_and_lineTag_eq_of_sameLine hline
  rw [State.accessResult_of_eq _ rfl, State.cacheSet_cacheAccess_of_eq _ hindex, ← htag, CacheSet.access_hit_iff]
  exact ⟨_, CacheSet.access_used_holds _ _ k⟩

/-- Settles O34: after A, B, A the two lines used last are A and then B, so C replaces B. -/
theorem leastRecentlyUsedIsEvicted : Obligations.LeastRecentlyUsedIsEvicted := by
  intro s a b c ka kb ka' kc k _ hb hc hab hac hbc s1 s2 s3 s4 used
  have h1 := s.cacheSet_cacheAccess_of_eq (rfl : setIndex a = setIndex a) ka
  have h2 := s1.cacheSet_cacheAccess_of_eq hb kb
  have h3 := s2.cacheSet_cacheAccess_of_eq (rfl : setIndex a = setIndex a) ka'
  have h4 := s3.cacheSet_cacheAccess_of_eq hc kc
  rw [h1] at h2
  have pair2 : (s2.cacheSet (setIndex a)).RecentPair (lineTag b) (lineTag a) :=
    h2 ▸ CacheSet.recentPair_access (CacheSet.access_used_holds _ _ ka) hab kb
  have pair3 : (s3.cacheSet (setIndex a)).RecentPair (lineTag a) (lineTag b) := h3 ▸ pair2.access hab.symm ka'
  have pair4 : (s4.cacheSet (setIndex a)).RecentPair (lineTag c) (lineTag a) := h4 ▸ pair3.access hac kc
  refine ⟨⟨?_, ?_, ?_⟩, fun hreset => ?_⟩
  · rw [s2.accessResult_of_eq rfl, pair2.access_hit_iff]
    exact .inr rfl
  · rw [s4.accessResult_of_eq rfl, pair4.access_hit_iff]
    exact .inr rfl
  · rw [s4.accessResult_of_eq hb, ne_eq, pair4.access_hit_iff, not_or]
    exact ⟨hbc, hab.symm⟩
  · have hempty : s.cacheSet (setIndex a) = .empty := hreset ▸ State.cacheSet_reset _
    obtain ⟨miss0, way1, miss1, way2⟩ := CacheSet.empty_two_accesses hab ka kb
    rw [← hempty] at miss0 way1 miss1 way2
    rw [← h1] at way1 miss1
    rw [← h2] at way2
    have way3 : used s3 = .way0 := by
      simp only [used]
      rw [h3, CacheSet.access_lastUsedWay_of_ne pair2.used hab.symm, way2]
      rfl
    have way4 : used s4 = .way1 := by
      simp only [used] at way3 ⊢
      rw [h4, CacheSet.access_lastUsedWay_of_ne pair3.used hac, way3]
      rfl
    have miss3 : s3.accessResult c kc ≠ .hit := by
      rw [s3.accessResult_of_eq hc, ne_eq, pair3.access_hit_iff, not_or]
      exact ⟨hac.symm, hbc.symm⟩
    exact ⟨miss0, way1, (s1.accessResult_of_eq hb kb).trans miss1, way2, way3, miss3, way4⟩

end Sys2Proof.Machine
end

section
/-! Which instructions can fault, where, and what they record (60_exceptions.md R192 to R195). -/

namespace Sys2Proof

/-- Both branch formats use all 32 bits of the word, so the word that faults can be recorded as the encoding of its
instruction (60_exceptions.md R193; log 9). -/
theorem Instr.ignoredBits_of_not_wellFormed {i : Instr} (h : i.wellFormed = false) : i.ignoredBits = 0 := by
  rcases Instr.wellFormed_eq_false_iff.1 h with rfl | ⟨mask, s1, rfl⟩
  · rfl
  · rfl

end Sys2Proof

namespace Sys2Proof.Machine

theorem not_inBounds_iff (a : Word) : ¬ inBounds a ↔ 0x000FFFFF < a.toNat := by
  rw [inBounds_iff, Nat.not_le]

/-- The one check each handler has: the displacement of a branch or the address of a data access
(60_exceptions.md R195). -/
theorem exec_faulted_cases {i : Instr} {s t : State} (hrun : s.runState = .running) (h : exec i s = .next t)
    (hfaulted : t.runState = .faulted) :
    (i.wellFormed = false ∧ t = s.raise .invalidBranchEncoding (encode i)) ∨
    ∃ d s1 b, i.dataAccess = some (d, s1, b) ∧ 0x000FFFFF < (s.effectiveAddress s1 b).toNat ∧
      t = s.raise .outOfBoundsAccess (s.effectiveAddress s1 b) := by
  have running_ne : s.runState ≠ .faulted := by rw [hrun]; decide
  cases effect_of_exec h with
  | halted => cases hfaulted
  | loaded => exact absurd hfaulted running_ne
  | stored => exact absurd hfaulted running_ne
  | accessFault _ access bounds => exact .inr ⟨_, _, _, access, (not_inBounds_iff _).1 bounds, rfl⟩
  | computed => exact absurd hfaulted running_ne
  | branched => exact absurd hfaulted running_ne
  | branchFault _ illFormed => exact .inl ⟨illFormed, rfl⟩

end Sys2Proof.Machine
end

section
/-! The statements of 60_exceptions.md, each from the cases of a step and of an instruction that faults. -/

namespace Sys2Proof.Machine

/-- Settles O8: the step raises the condition on the state after the fetch step. -/
theorem unknownWordFaults : Obligations.UnknownWordFaults :=
  fun s iw hrun hword hdec =>
    ⟨s.afterFetch, _, s.afterFetch_fetchStep, step_of_unknownInstruction hrun hword hdec, State.raise_faults _ _ iw⟩

/-- Settles O12: the checks in the order of 60_exceptions.md R195, the fetch, the dispatch and the handler's own. -/
theorem fatalConditionsAreThese : Obligations.FatalConditionsAreThese := by
  intro s t hrun h hfaulted
  rcases step_cases h with
    ⟨hended, -⟩ | ⟨-, hnone, rfl⟩ | ⟨iw, -, hword, hdec, rfl⟩ | ⟨iw, i, -, hword, hdec, hexec⟩
  · exact absurd hrun hended
  · exact .inl ⟨(s.wordAt_eq_none_iff s.fp).1 hnone, rfl, rfl⟩
  · exact .inr ⟨iw, hword, .inl ⟨hdec, rfl, rfl⟩⟩
  · refine .inr ⟨iw, hword, .inr ?_⟩
    rcases exec_faulted_cases (s := s.afterFetch) hrun hexec hfaulted with
      ⟨hillegal, rfl⟩ | ⟨d, s1, b, haccess, hout, rfl⟩
    · have hform : decode iw = .form (.br 0) ∨ ∃ mask s1, decode iw = .form (.bcnd mask s1 0) := by
        simpa [hdec] using Instr.wellFormed_eq_false_iff.1 hillegal
      have hencode : encode i = iw := encode_of_decode (Instr.ignoredBits_of_not_wellFormed hillegal) hdec
      exact .inl ⟨hform, rfl, hencode⟩
    · rw [State.effectiveAddress_afterFetch] at hout ⊢
      exact .inr ⟨i, d, s1, b, hdec, haccess, hout, rfl, rfl⟩

end Sys2Proof.Machine
end

section
/-! What the loader leaves in memory, word by word, and the states that are as after reset but for memory
(70_reset_and_hazards.md R210, R213, R214). -/

namespace Sys2Proof.Machine

/-! ## Memory after the loader -/

/-- The words of the program, from word 0 up, and every other word as before (70_reset_and_hazards.md R214). -/
theorem State.wordAt_loadProgram (s : State) (program : List Word) {a : Word} (ha : inBounds a) :
    (s.loadProgram program).wordAt a =
      if h : widx a < program.length then some program[widx a] else s.wordAt a := by
  have hlookup := s.lookup_loadFrom program 0 (widx a)
  rw [State.wordAt_of_inBounds ha, State.wordAt_of_inBounds ha, State.loadProgram, Memory.word]
  by_cases h : widx a < program.length
  · rw [dif_pos h, hlookup, dif_pos ⟨Nat.zero_le _, h⟩]
    rfl
  · rw [dif_neg h, hlookup, dif_neg (fun hin => h hin.2), Memory.word]

theorem State.memoryCanonical_loadProgram {s : State} (hs : s.memoryCanonical) {program : List Word}
    (hlen : program.length ≤ loadMaxWords) : (s.loadProgram program).memoryCanonical := by
  refine s.wf_loadFrom program 0 hs ?_
  rw [loadMaxWords_eq] at hlen
  rw [memWords_eq]
  omega

/-! ## States that are as after reset but for memory -/

/-- The loader, after a reset, moves nothing but memory. -/
theorem State.loadProgram_applyReset (s : State) (program : List Word) :
    s.applyReset.loadProgram program =
      { State.reset with mem := (s.applyReset.loadProgram program).mem } :=
  s.applyReset.loadFrom_rest program 0

/-- Of the invariants only the canonical form speaks of memory, so the others are those of `State.reset`. -/
theorem State.inv_of_eq_reset_with_mem {t : State} (ht : t = { State.reset with mem := t.mem })
    (hmem : t.memoryCanonical) : t.Inv := by
  obtain ⟨-, zeroSlot, pointers, record, directory, counters, writeBacks⟩ := resetMeetsTheInvariants
  rw [ht]
  exact ⟨hmem, zeroSlot, pointers, record, directory, counters, writeBacks⟩

/-! ## The launch, by the length of the program (70_reset_and_hazards.md R215) -/

theorem State.launch_of_le (s : State) {program : List Word} (h : program.length ≤ loadMaxWords) :
    s.launch program = .next (s.applyReset.loadProgram program) := if_pos h

theorem State.launch_of_gt (s : State) {program : List Word} (h : loadMaxWords < program.length) :
    s.launch program = .refused .loadOverflow := if_neg (Nat.not_le.2 h)

end Sys2Proof.Machine
end

section
/-! The statement of 70_reset_and_hazards.md: reset and the loader each leave a state that is as after reset but for
memory. -/

namespace Sys2Proof.Machine

/-- Settles O28: reset leaves memory alone, and the loader after it changes the words of the program only. -/
theorem launchPlacesTheProgram : Obligations.LaunchPlacesTheProgram := by
  intro s program atReset
  have atReset_with_mem (m : Memory) : atReset { State.reset with mem := m } :=
    ⟨rfl, rfl, rfl, rfl, rfl, State.readReg_reset, rfl, fun _ => rfl⟩
  have same_memory : SameMemory s s.applyReset := State.wordAt_congr rfl
  refine ⟨⟨atReset_with_mem s.mem, same_memory⟩, fun hcanonical hlen => ?_, s.launch_of_gt⟩
  have hloaded := s.loadProgram_applyReset program
  refine ⟨s.applyReset.loadProgram program, s.launch_of_le hlen, ?inv, ?atReset, fun a ha => ?word⟩
  case inv =>
    exact State.inv_of_eq_reset_with_mem hloaded
      (State.memoryCanonical_loadProgram (s := s.applyReset) hcanonical hlen)
  case atReset => exact hloaded ▸ atReset_with_mem _
  case word => rw [s.applyReset.wordAt_loadProgram program ((inBounds_iff a).2 ha), same_memory a]

end Sys2Proof.Machine
end
